-- ==== Sys2Proof/Word.lean ====
section
/-! DEFINITION. The word types of the CHIP-8 core: a byte, a 16-bit word, a register number (R7, R20). -/

namespace Sys2Proof

/-- A register's contents, a memory cell, an 8-bit immediate NN. -/
abbrev Byte := BitVec 8

/-- An instruction word; the stored form of `pc`, `I` and a call-stack entry. -/
abbrev Word := BitVec 16

/-- A register number: V0 to VF, every value legal in every field (R94). -/
abbrev Reg := Fin 16

end Sys2Proof
end

