-- ==== Sys2Proof/Syntax.lean ====
section
/-! DEFINITION. The instruction set as syntax: one constructor per row of spec/opcode_table.json (R96).
An address field NNN is kept as a 16-bit word, the stored width of `pc` and `I`; a sprite height N is a count.
`Instr.wellFormed` (WellFormed.lean) bounds the two. -/

namespace Sys2Proof

/-- The 34 instructions, in the order of the table of R96. -/
inductive Instr where
  /-- 00E0 CLS -/
  | cls
  /-- 00EE RET -/
  | ret
  /-- 1NNN JP NNN -/
  | jp (nnn : Word)
  /-- 2NNN CALL NNN -/
  | call (nnn : Word)
  /-- 3XNN SE Vx, NN -/
  | seImm (x : Reg) (nn : Byte)
  /-- 4XNN SNE Vx, NN -/
  | sneImm (x : Reg) (nn : Byte)
  /-- 5XY0 SE Vx, Vy -/
  | seReg (x y : Reg)
  /-- 6XNN LD Vx, NN -/
  | ldImm (x : Reg) (nn : Byte)
  /-- 7XNN ADD Vx, NN -/
  | addImm (x : Reg) (nn : Byte)
  /-- 8XY0 LD Vx, Vy -/
  | ldReg (x y : Reg)
  /-- 8XY1 OR Vx, Vy -/
  | orReg (x y : Reg)
  /-- 8XY2 AND Vx, Vy -/
  | andReg (x y : Reg)
  /-- 8XY3 XOR Vx, Vy -/
  | xorReg (x y : Reg)
  /-- 8XY4 ADD Vx, Vy -/
  | addReg (x y : Reg)
  /-- 8XY5 SUB Vx, Vy -/
  | subReg (x y : Reg)
  /-- 8XY6 SHR Vx: the field Y is present in the word and ignored (R94). -/
  | shr (x y : Reg)
  /-- 8XY7 SUBN Vx, Vy -/
  | subnReg (x y : Reg)
  /-- 8XYE SHL Vx: the field Y is present in the word and ignored (R94). -/
  | shl (x y : Reg)
  /-- 9XY0 SNE Vx, Vy -/
  | sneReg (x y : Reg)
  /-- ANNN LD I, NNN -/
  | ldI (nnn : Word)
  /-- BNNN JP V0, NNN -/
  | jpV0 (nnn : Word)
  /-- CXNN RND Vx, NN -/
  | rnd (x : Reg) (nn : Byte)
  /-- DXYN DRW Vx, Vy, N -/
  | drw (x y : Reg) (n : Nat)
  /-- EX9E SKP Vx -/
  | skp (x : Reg)
  /-- EXA1 SKNP Vx -/
  | sknp (x : Reg)
  /-- FX07 LD Vx, DT -/
  | ldVxDt (x : Reg)
  /-- FX0A LD Vx, K -/
  | ldVxK (x : Reg)
  /-- FX15 LD DT, Vx -/
  | ldDtVx (x : Reg)
  /-- FX18 LD ST, Vx -/
  | ldStVx (x : Reg)
  /-- FX1E ADD I, Vx -/
  | addI (x : Reg)
  /-- FX29 LD F, Vx -/
  | ldF (x : Reg)
  /-- FX33 LD B, Vx -/
  | ldB (x : Reg)
  /-- FX55 LD [I], Vx -/
  | storeRegs (x : Reg)
  /-- FX65 LD Vx, [I] -/
  | loadRegs (x : Reg)
deriving DecidableEq, Repr

end Sys2Proof
end

