-- ==== Sys2Proof/Decode.lean ====
section
/-! DEFINITION. Field extraction (R8), the opcode map as a table of masks and patterns (R96), the decoder over it (R91),
rejecting by name (R99), and the encoder written from the six formats (R93). -/

namespace Sys2Proof

/-- `X = opcode[11:8]` (R8). -/
def fieldX (w : Word) : Reg := (w.extractLsb' 8 4).toFin

/-- `Y = opcode[7:4]` (R8). -/
def fieldY (w : Word) : Reg := (w.extractLsb' 4 4).toFin

/-- `N = opcode[3:0]` (R8), a number of sprite rows. -/
def fieldN (w : Word) : Nat := (w.extractLsb' 0 4).toNat

/-- `NN = opcode[7:0]` (R8). -/
def fieldNN (w : Word) : Byte := w.extractLsb' 0 8

/-- `NNN = opcode & 0x0FFF` (R8). -/
def fieldNNN (w : Word) : Word := w &&& 0x0FFF#16

/-- One row of the opcode map: a word `w` selects it when `w & mask = pat` (R91). -/
structure OpRow where
  /-- the fixed bits -/
  mask : Word
  /-- their values -/
  pat : Word
  /-- the instruction, its operands taken from the word's fields -/
  build : Word → Instr

/-- A word matches a row when `w & mask = match` (R91). -/
def OpRow.selects (r : OpRow) (w : Word) : Bool := w &&& r.mask == r.pat

/-- Rows 1 to 9 of R96. That 5XYN and 9XYN need N = 0 is DESIGN CHOICE (decision D17), unsafe; log 16. -/
def opRowsLow : List OpRow := [
  ⟨0xFFFF#16, 0x00E0#16, fun _ => .cls⟩,
  ⟨0xFFFF#16, 0x00EE#16, fun _ => .ret⟩,
  ⟨0xF000#16, 0x1000#16, fun w => .jp (fieldNNN w)⟩,
  ⟨0xF000#16, 0x2000#16, fun w => .call (fieldNNN w)⟩,
  ⟨0xF000#16, 0x3000#16, fun w => .seImm (fieldX w) (fieldNN w)⟩,
  ⟨0xF000#16, 0x4000#16, fun w => .sneImm (fieldX w) (fieldNN w)⟩,
  ⟨0xF00F#16, 0x5000#16, fun w => .seReg (fieldX w) (fieldY w)⟩,
  ⟨0xF000#16, 0x6000#16, fun w => .ldImm (fieldX w) (fieldNN w)⟩,
  ⟨0xF000#16, 0x7000#16, fun w => .addImm (fieldX w) (fieldNN w)⟩]

/-- Rows 10 to 18 of R96, the primary opcode 8. -/
def opRowsAlu : List OpRow := [
  ⟨0xF00F#16, 0x8000#16, fun w => .ldReg (fieldX w) (fieldY w)⟩,
  ⟨0xF00F#16, 0x8001#16, fun w => .orReg (fieldX w) (fieldY w)⟩,
  ⟨0xF00F#16, 0x8002#16, fun w => .andReg (fieldX w) (fieldY w)⟩,
  ⟨0xF00F#16, 0x8003#16, fun w => .xorReg (fieldX w) (fieldY w)⟩,
  ⟨0xF00F#16, 0x8004#16, fun w => .addReg (fieldX w) (fieldY w)⟩,
  ⟨0xF00F#16, 0x8005#16, fun w => .subReg (fieldX w) (fieldY w)⟩,
  ⟨0xF00F#16, 0x8006#16, fun w => .shr (fieldX w) (fieldY w)⟩,
  ⟨0xF00F#16, 0x8007#16, fun w => .subnReg (fieldX w) (fieldY w)⟩,
  ⟨0xF00F#16, 0x800E#16, fun w => .shl (fieldX w) (fieldY w)⟩]

/-- Rows 19 to 25 of R96. -/
def opRowsHigh : List OpRow := [
  ⟨0xF00F#16, 0x9000#16, fun w => .sneReg (fieldX w) (fieldY w)⟩,
  ⟨0xF000#16, 0xA000#16, fun w => .ldI (fieldNNN w)⟩,
  ⟨0xF000#16, 0xB000#16, fun w => .jpV0 (fieldNNN w)⟩,
  ⟨0xF000#16, 0xC000#16, fun w => .rnd (fieldX w) (fieldNN w)⟩,
  ⟨0xF000#16, 0xD000#16, fun w => .drw (fieldX w) (fieldY w) (fieldN w)⟩,
  ⟨0xF0FF#16, 0xE09E#16, fun w => .skp (fieldX w)⟩,
  ⟨0xF0FF#16, 0xE0A1#16, fun w => .sknp (fieldX w)⟩]

/-- Rows 26 to 34 of R96, the primary opcode F. -/
def opRowsMisc : List OpRow := [
  ⟨0xF0FF#16, 0xF007#16, fun w => .ldVxDt (fieldX w)⟩,
  ⟨0xF0FF#16, 0xF00A#16, fun w => .ldVxK (fieldX w)⟩,
  ⟨0xF0FF#16, 0xF015#16, fun w => .ldDtVx (fieldX w)⟩,
  ⟨0xF0FF#16, 0xF018#16, fun w => .ldStVx (fieldX w)⟩,
  ⟨0xF0FF#16, 0xF01E#16, fun w => .addI (fieldX w)⟩,
  ⟨0xF0FF#16, 0xF029#16, fun w => .ldF (fieldX w)⟩,
  ⟨0xF0FF#16, 0xF033#16, fun w => .ldB (fieldX w)⟩,
  ⟨0xF0FF#16, 0xF055#16, fun w => .storeRegs (fieldX w)⟩,
  ⟨0xF0FF#16, 0xF065#16, fun w => .loadRegs (fieldX w)⟩]

/-- The complete opcode map: the 34 rows of R96. -/
def opTable : List OpRow := opRowsLow ++ opRowsAlu ++ opRowsHigh ++ opRowsMisc

/-- The instruction a word selects, none for an unrecognised word (R91, R99). -/
def decodeWord (w : Word) : Option Instr := (opTable.find? (·.selects w)).map (·.build w)

/-- Why bytes are no instruction. -/
inductive Reject where
  /-- The word matches no row of R96: UnknownOpcode (R99). -/
  | unknownOpcode (word : Word)
  /-- Fewer than the two bytes every instruction has (R92); memory never gives this, only a short list does. -/
  | truncated (bytes : List Byte)
deriving DecidableEq, Repr

/-- Two bytes of an instruction, the one at the lower address first, as a word: big-endian (R61). -/
def wordOfBytes (hi lo : Byte) : Word := hi ++ lo

/-- Decode the instruction at the head of a byte stream; the rest is handed back (R91, R92). -/
def decode : List Byte → Except Reject (Instr × List Byte)
  | hi :: lo :: rest =>
    match decodeWord (wordOfBytes hi lo) with
    | some i => .ok (i, rest)
    | none => .error (.unknownOpcode (wordOfBytes hi lo))
  | bytes => .error (.truncated bytes)

/-- The bits 15 to 8 of a word, stored at the lower address (R61). -/
def highByte (w : Word) : Byte := w.extractLsb' 8 8

/-- The bits 7 to 0 of a word, stored at the higher address (R61). -/
def lowByte (w : Word) : Byte := w.extractLsb' 0 8

/-- The instruction the decoder reads where the opcode table's bits `w` (of which `nbits` are given, the others 0) are laid
out as the hardware stores them. -/
def decodeTableWord (nbits w : Nat) : Option Instr :=
  let word : Word := BitVec.ofNat 16 (w % 2 ^ nbits)
  match decode [highByte word, lowByte word] with
  | .ok (i, _) => some i
  | .error _ => none

/-- A register number as a nibble of the word. -/
def regNibble (x : Reg) : BitVec 4 := BitVec.ofFin x

/-- Format NNN (R93). -/
def encodeNNN (op : BitVec 4) (nnn : Word) : Word := op ++ nnn.setWidth 12

/-- Format XNN (R93). -/
def encodeXNN (op : BitVec 4) (x : Reg) (nn : Byte) : Word := op ++ regNibble x ++ nn

/-- Formats XY and XYN (R93): the last nibble is the secondary opcode or N. -/
def encodeXYN (op : BitVec 4) (x y : Reg) (last : BitVec 4) : Word := op ++ regNibble x ++ regNibble y ++ last

/-- Format XB (R93): the low byte is the secondary opcode. -/
def encodeXB (op : BitVec 4) (x : Reg) (last : Byte) : Word := op ++ regNibble x ++ last

/-- The word of a well-formed instruction, by the formats of R93 and the patterns of R96. -/
def encode : Instr → Word
  | .cls => 0x00E0#16
  | .ret => 0x00EE#16
  | .jp nnn => encodeNNN 0x1#4 nnn
  | .call nnn => encodeNNN 0x2#4 nnn
  | .seImm x nn => encodeXNN 0x3#4 x nn
  | .sneImm x nn => encodeXNN 0x4#4 x nn
  | .seReg x y => encodeXYN 0x5#4 x y 0x0#4
  | .ldImm x nn => encodeXNN 0x6#4 x nn
  | .addImm x nn => encodeXNN 0x7#4 x nn
  | .ldReg x y => encodeXYN 0x8#4 x y 0x0#4
  | .orReg x y => encodeXYN 0x8#4 x y 0x1#4
  | .andReg x y => encodeXYN 0x8#4 x y 0x2#4
  | .xorReg x y => encodeXYN 0x8#4 x y 0x3#4
  | .addReg x y => encodeXYN 0x8#4 x y 0x4#4
  | .subReg x y => encodeXYN 0x8#4 x y 0x5#4
  | .shr x y => encodeXYN 0x8#4 x y 0x6#4
  | .subnReg x y => encodeXYN 0x8#4 x y 0x7#4
  | .shl x y => encodeXYN 0x8#4 x y 0xE#4
  | .sneReg x y => encodeXYN 0x9#4 x y 0x0#4
  | .ldI nnn => encodeNNN 0xA#4 nnn
  | .jpV0 nnn => encodeNNN 0xB#4 nnn
  | .rnd x nn => encodeXNN 0xC#4 x nn
  | .drw x y n => encodeXYN 0xD#4 x y (BitVec.ofNat 4 n)
  | .skp x => encodeXB 0xE#4 x 0x9E#8
  | .sknp x => encodeXB 0xE#4 x 0xA1#8
  | .ldVxDt x => encodeXB 0xF#4 x 0x07#8
  | .ldVxK x => encodeXB 0xF#4 x 0x0A#8
  | .ldDtVx x => encodeXB 0xF#4 x 0x15#8
  | .ldStVx x => encodeXB 0xF#4 x 0x18#8
  | .addI x => encodeXB 0xF#4 x 0x1E#8
  | .ldF x => encodeXB 0xF#4 x 0x29#8
  | .ldB x => encodeXB 0xF#4 x 0x33#8
  | .storeRegs x => encodeXB 0xF#4 x 0x55#8
  | .loadRegs x => encodeXB 0xF#4 x 0x65#8

/-- The two bytes of an instruction in memory order, high byte first (R61, R92). -/
def encodeBytes (i : Instr) : List Byte := [highByte (encode i), lowByte (encode i)]

end Sys2Proof
end

