-- ==== Sys2Proof/Config.lean ====
section
/-! DEFINITION. The parameters of the hardware (R5) and what the spec leaves open: the bytes of the reserved range at power-on
and the environment's next move, each a free value with no body. -/

namespace Sys2Proof

/-- `MEM_SIZE` (R5): addresses 0x000 to 0xFFF. -/
abbrev Config.memSize : Nat := 4096

/-- The default of the parameter `STACK_DEPTH` (R5, R31), the depth of `State.reset`. DESIGN CHOICE (decision D3), unsafe for a
claim that starts from `State.reset` on a chip of another depth; log 6. -/
abbrev Config.defaultStackDepth : Nat := 16

/-- `FB_W` (R5): columns. -/
abbrev Config.fbWidth : Nat := 64

/-- `FB_H` (R5): rows. -/
abbrev Config.fbHeight : Nat := 32

/-- The font occupies the addresses below this one: 16 glyphs of 5 bytes from `FONT_BASE` = 0x000 (R5, R66). -/
abbrev Config.fontEnd : Nat := 0x050

/-- A value of the parameter `FONT` (R5, R39): the 80 bytes, glyph after glyph. -/
abbrev Font := Vector Byte Config.fontEnd

/-- `PROG_BASE` (R5): where a ROM is loaded; the reserved range ends here (R66). -/
abbrev Config.progBase : Nat := 0x200

/-- `ROM_MAX` (R5, R68): 3584 bytes. -/
abbrev Config.romMax : Nat := 3584

/-- `MEM_LOW_INIT` (R5, R241): the byte at an address of 0x050 to 0x1FF at power-on. A free value, DESIGN CHOICE, safe; log 1. -/
opaque Config.memLowInit : Nat → Byte

/-- One move of the run: which agent takes the next step, and what the environment presents to it (R6, R40, R259). -/
inductive Machine.Turn where
  /-- An instruction slot for the engine, with the level of the sixteen key lines (line k is bit k) and the byte on the
  random port in that slot. -/
  | engine (keys : BitVec 16) (rnd : Byte)
  /-- A strobe of the timer tick. -/
  | tick
  /-- The host calls `load(rom)`. -/
  | load (rom : List Byte)
  /-- The host calls `reset()`. -/
  | reset
deriving DecidableEq, Repr, Inhabited

/-- The environment's move where State lists none: any agent, any keys, any byte (R6, R218, R220, R221). A free value, DESIGN CHOICE,
safe; log 3. -/
opaque Config.freeTurn : Nat → Machine.Turn

end Sys2Proof
end

