-- ==== Sys2Proof/Machine/State.lean ====
section
/-! DEFINITION. The machine's state as plain data, why it can stop, and the state after reset (10_state.md, R44). -/

namespace Sys2Proof.Machine

/-- A fatal stack fault, the cause carried by HALT (R36, R200). -/
inductive Cause where
  /-- code 1: 00EE with an empty stack (R201) -/
  | stackUnderflow
  /-- code 2: 2NNN with a full stack (R202) -/
  | stackOverflow
deriving DecidableEq, Repr

/-- `MODE`, the engine's micro-state (R35). -/
inductive Mode where
  /-- the next EngineStep fetches and executes -/
  | run
  /-- an FX0A for register x is waiting for a key -/
  | waitKey (x : Reg)
  /-- a stack fault has stopped the engine -/
  | halt (cause : Cause)
deriving DecidableEq, Repr

/-- What one step presents to the host besides the lines that are functions of the state (R41, R205). Not the core's state:
log 5. -/
inductive Event where
  /-- `Diag(UnknownOpcode, (word, addr))`, kind 3: the word and the address it was fetched from (R205) -/
  | unknownOpcode (word : Word) (addr : Word)
  /-- `load` succeeded (R41, R243) -/
  | loadDone
  /-- `load` was rejected, code 4 (R204) -/
  | romTooLarge
deriving DecidableEq, Repr

/-- `MEM` as the cells that differ from what an unlisted address reads as (Machine/Ops.lean, `initByte`), by rising address. -/
abbrev Memory := List Host.Cell

/-- `FB`, 32 rows of 64 one-bit pixels: `FB[y][x]` is bit x of row y, column 0 the leftmost (R38). -/
abbrev Framebuffer := Vector (BitVec Config.fbWidth) Config.fbHeight

/-- The whole state: the tuple of 10_state.md, then the parameter `FONT` of the step, which no step writes (R43; log 2; the parameter
`STACK_DEPTH` is the length of `stk`, log 6), then the model's own fields (the environment's inputs, schedule and outputs, which
R43 keeps outside the core; log 3, 4, 5). -/
structure State where
  /-- V0 to VF (R20); VF is `v[15]` (R27) -/
  v : Vector Byte 16
  /-- the index register, 12 significant bits (R30) -/
  i : Word
  /-- the program counter, 12 significant bits (R24) -/
  pc : Word
  /-- the call stack's entries, `STACK_DEPTH` of them (R31) -/
  stk : List Word
  /-- `SP`: how many return addresses are held (R31) -/
  sp : Nat
  /-- the delay timer (R33) -/
  dt : Byte
  /-- the sound timer (R34) -/
  st : Byte
  /-- the engine's micro-state (R35) -/
  mode : Mode
  /-- program and data memory (R37) -/
  mem : Memory
  /-- the framebuffer (R38) -/
  fb : Framebuffer
  /-- the parameter `FONT` (R39) -/
  font : Font
  /-- model's own: the key lines in the engine's present slot (R220) -/
  keys : BitVec 16
  /-- model's own: the random port's byte in the engine's present slot (R221) -/
  rnd : Byte
  /-- model's own: the moves the environment has scheduled, first to come first (R6) -/
  turns : List Turn
  /-- model's own: the number of the next free move -/
  turnNo : Nat
  /-- model's own: what the step just taken presented to the host (R205) -/
  out : Option Event
deriving DecidableEq, Repr

/-- Why the model could stop. No constructor: every turn the spec describes has an effect in every state, a stack fault being a
next state in mode HALT (R211). Nobody raises one; that is safe, nothing being left out by it. -/
inductive Fault : Type
deriving DecidableEq, Repr

/-- Why an instruction is given no meaning. -/
inductive Refusal where
  /-- Raised by an arm of `exec` whose instruction has no meaning yet; safe, since nothing can be proved of its effect. No
  arm raises it now. -/
  | notModelled (mnemonic : String)
deriving DecidableEq, Repr

/-- The state at power-on of a machine with the given parameters: the state after `reset()` with the reserved range at
`MEM_LOW_INIT` (R44, R241). The registers' zeros,
`pc` and MODE are DESIGN CHOICE (decision D13), unsafe, log 11; the model's own fields are log 3, 4, 5. -/
def State.powerOn (font : Font) (stackDepth : Nat) : State where
  v := Vector.replicate 16 0
  i := 0x000
  pc := 0x200
  stk := List.replicate stackDepth 0
  sp := 0
  dt := 0
  st := 0
  mode := .run
  mem := []
  fb := Vector.replicate Config.fbHeight 0
  font := font
  keys := 0
  rnd := 0
  turns := []
  turnNo := 0
  out := none

/-- The state at power-on with the parameters at their defaults (R5). -/
def State.reset : State := State.powerOn defaultFont Config.defaultStackDepth

end Sys2Proof.Machine
end

