-- ==== Sys2Proof/Machine/Ops.lean ====
section
/-! DEFINITION. The named operations: registers (R21, R24, R30), memory (R37, R60), the call stack (R32), fault entry (R211) and
the only ways out of it, `load` and `reset` (R243, R244), the timer unit (R216), the input and output lines (R40, R41). -/

namespace Sys2Proof.Machine

/-- What a meaning answers. -/
abbrev Result := Host.Outcome State Fault Refusal

/-! ## Registers -/

/-- `V[x]` (R20). -/
def State.reg (s : State) (x : Reg) : Byte := s.v[x.val]

/-- `V[x] <- b` (R21). -/
def State.setReg (s : State) (x : Reg) (b : Byte) : State := { s with v := s.v.set x.val b }

/-- VF, the flag register `V[15]` (R27). -/
def vf : Reg := 15

/-- The low 12 bits: the mask on every write of `pc` and `I` (R24, R30). For `pc` DESIGN CHOICE (decision D2), unsafe; log 7. -/
def low12 (a : Word) : Word := a &&& 0x0FFF#16

/-- `pc <- a`, masked (R24). -/
def State.setPc (s : State) (a : Word) : State := { s with pc := low12 a }

/-- `I <- a`, masked (R30). -/
def State.setI (s : State) (a : Word) : State := { s with i := low12 a }

/-- `DT <- b` (R33). -/
def State.setDt (s : State) (b : Byte) : State := { s with dt := b }

/-- `ST <- b` (R34). -/
def State.setSt (s : State) (b : Byte) : State := { s with st := b }

/-- `MODE <- m` (R35). -/
def State.setMode (s : State) (m : Mode) : State := { s with mode := m }

/-- `FB <- f` (R38). -/
def State.setFb (s : State) (f : Framebuffer) : State := { s with fb := f }

/-! ## Memory -/

/-- What an unlisted address reads as: the contents of memory at power-on (R44, R241). -/
def initByte (f : Font) (a : Nat) : Byte :=
  if h : a < Config.fontEnd then f[a]
  else if a < Config.progBase then Config.memLowInit a
  else 0

/-- The byte listed for an address. -/
def Memory.lookup : Memory → Nat → Option Byte
  | [], _ => none
  | (b, x) :: m, a => if b = a then some x else Memory.lookup m a

/-- List a byte at its place among rising addresses, in place of one listed there. -/
def Memory.insert : Memory → Nat → Byte → Memory
  | [], a, x => [(a, x)]
  | (b, y) :: m, a, x =>
    if a < b then (a, x) :: (b, y) :: m
    else if a = b then (a, x) :: m
    else (b, y) :: Memory.insert m a x

/-- Take an address off the list. -/
def Memory.remove : Memory → Nat → Memory
  | [], _ => []
  | (b, y) :: m, a => if b = a then Memory.remove m a else (b, y) :: Memory.remove m a

/-- `MemRead(addr, 1)`: the cell at `addr mod 4096` (R60). DESIGN CHOICE (decision D1), unsafe; log 7. -/
def Memory.read (m : Memory) (f : Font) (addr : Nat) : Byte :=
  (m.lookup (addr % Config.memSize)).getD (initByte f (addr % Config.memSize))

/-- `MemWrite(addr, 1, x)`: the cell at `addr mod 4096` (R60); a cell at its power-on value is not listed. -/
def Memory.write (m : Memory) (f : Font) (addr : Nat) (x : Byte) : Memory :=
  if x = initByte f (addr % Config.memSize) then m.remove (addr % Config.memSize)
  else m.insert (addr % Config.memSize) x

/-- The canonical form from a lower bound on: addresses strictly rising and below 4096, no cell at its power-on value. -/
def Memory.wfFrom (f : Font) : Nat → Memory → Bool
  | _, [] => true
  | lo, (a, x) :: m => decide (lo ≤ a) && decide (a < Config.memSize) && (x != initByte f a) && Memory.wfFrom f (a + 1) m

/-- Memory is in its canonical form. -/
def Memory.wf (m : Memory) (f : Font) : Bool := m.wfFrom f 0

/-- The byte of memory at an address, modulo 4096 (R60). -/
def State.readByte (s : State) (addr : Nat) : Byte := s.mem.read s.font addr

/-- Store a byte at an address, modulo 4096 (R60). -/
def State.writeByte (s : State) (addr : Nat) (x : Byte) : State := { s with mem := s.mem.write s.font addr x }

/-! ## The call stack -/

/-- `STACK_DEPTH` (R31): how many entries the stack has. -/
def State.stackDepth (s : State) : Nat := s.stk.length

/-- `Push(a)`: none when the stack is full, nothing being changed then (R32). -/
def State.push (s : State) (a : Word) : Option State :=
  if s.sp < s.stackDepth then some { s with stk := s.stk.set s.sp a, sp := s.sp + 1 }
  else none

/-- `Pop()`: none when the stack is empty, nothing being changed then; the released entry keeps its bits (R32).
An SP above `STACK_DEPTH` is no state of the machine (R31, `Inv`). -/
def State.pop (s : State) : Option (Word × State) :=
  match s.sp with
  | 0 => none
  | k + 1 => some (s.stk.getD k 0, { s with sp := k })

/-! ## Faults: entry, and the only ways out -/

/-- Fault entry: MODE records the cause; `pc` keeps the fetch advance and nothing else changes (R211). DESIGN CHOICE (decision
D4), unsafe; log 8. -/
def State.raise (s : State) (cause : Cause) : State := s.setMode (.halt cause)

/-- Present a record to the host for this step (R205). -/
def State.emit (s : State) (e : Event) : State := { s with out := some e }

/-- The cells of a ROM laid out from an address on, those at their power-on value unlisted. -/
def romCells (f : Font) : Nat → List Byte → Memory
  | _, [] => []
  | a, x :: rom => if x = initByte f a then romCells f (a + 1) rom else (a, x) :: romCells f (a + 1) rom

/-- Memory after a load: the font rewritten, 0x200 to 0xFFF cleared and the ROM copied to 0x200; 0x050 to 0x1FF as it was (R243). -/
def Memory.loaded (m : Memory) (f : Font) (rom : List Byte) : Memory :=
  m.filter (fun c => decide (Config.fontEnd ≤ c.1) && decide (c.1 < Config.progBase)) ++ romCells f Config.progBase rom

/-- Every state element but memory at its reset value (R243 step 4); the parameters are kept, and the environment's
lines and schedule are not the core's and stay. -/
def State.reinit (s : State) : State :=
  { State.powerOn s.font s.stackDepth with
    mem := s.mem, keys := s.keys, rnd := s.rnd, turns := s.turns, turnNo := s.turnNo, out := s.out }

/-- `load(rom)` (R243): rejected with RomTooLarge above 3584 bytes, the state unchanged (R204); else the core is re-initialised
and the ROM is in memory. A pending key wait is discarded and a halt cleared (R213, R245). DESIGN CHOICE (decisions D14, D23,
D25), unsafe; log 17. -/
def State.load (s : State) (rom : List Byte) : State :=
  if rom.length ≤ Config.romMax then { s.reinit with mem := s.mem.loaded s.font rom, out := some .loadDone }
  else s.emit .romTooLarge

/-- `reset()`: a load of the empty ROM, with no result to report (R244). DESIGN CHOICE (decision D15), unsafe; log 17. -/
def State.hostReset (s : State) : State := { s.load [] with out := none }

/-! ## The timer unit -/

/-- A timer's next count: down by one, never below zero (R216). -/
def countDown (b : Byte) : Byte := if b = 0 then 0 else b - 1

/-- TimerTick: both timers in one indivisible step, in every MODE (R216, R217). DESIGN CHOICE (decision
D26), unsafe; log 21. -/
def State.timerTick (s : State) : State := (s.setDt (countDown s.dt)).setSt (countDown s.st)

/-! ## Input and output lines -/

/-- The environment's next move: the one scheduled first, or a free one (log 3). -/
def State.nextTurn (s : State) : Turn :=
  match s.turns with
  | t :: _ => t
  | [] => Config.freeTurn s.turnNo

/-- The move is used up, and the record presented by the step before it is gone (R205: "for the duration of that one step"). -/
def State.endTurn (s : State) : State :=
  match s.turns with
  | _ :: ts => { s with turns := ts, out := none }
  | [] => { s with turnNo := s.turnNo + 1, out := none }

/-- The lines of the key port and the random port in this slot (R220, R221). -/
def State.present (s : State) (keys : BitVec 16) (rnd : Byte) : State := { s with keys := keys, rnd := rnd }

/-- `KeyDown(k)` for k in 0..15: line k (R220). -/
def State.keyDown (s : State) (k : Nat) : Bool := s.keys.getLsbD k

/-- The lowest code of the keys that are down (R182). DESIGN CHOICE (decision D9), unsafe; log 15. -/
def State.lowestKey (s : State) : Option Byte := ((List.range 16).find? s.keyDown).map (BitVec.ofNat 8)

/-- `RandomByte()` (R221). -/
def State.randomByte (s : State) : Byte := s.rnd

/-- The framebuffer snapshot (R222). -/
def State.snapshot (s : State) : Framebuffer := s.fb

/-- The sound line: `ST > 0` (R223). DESIGN CHOICE (decision D22), safe; log 27. -/
def State.sound (s : State) : Bool := decide (0 < s.st.toNat)

/-- The numeric code of a cause (R200). DESIGN CHOICE (decision D5), safe; log 26. -/
def Cause.code : Cause → Nat
  | .stackUnderflow => 1
  | .stackOverflow => 2

/-- The fault line with its cause code: present while MODE is HALT (R224). -/
def State.faultLine (s : State) : Option Nat :=
  match s.mode with
  | .halt cause => some cause.code
  | .run | .waitKey _ => none

/-- The numeric code of an event that reports a condition of R200. -/
def Event.code : Event → Option Nat
  | .unknownOpcode _ _ => some 3
  | .romTooLarge => some 4
  | .loadDone => none

end Sys2Proof.Machine
end

