-- ==== Sys2Proof/Machine/Flags.lean ====
section
/-! DEFINITION. The values written to VF (R27): carry, not-borrow, the bit shifted out, collision; and the one way a data result and
its flag are written (R29). -/

namespace Sys2Proof.Machine

/-- A flag as the full 8-bit value 0x00 or 0x01 (R27). -/
def flagByte (c : Bool) : Byte := if c then 0x01 else 0x00

/-- 8XY4: the 9-bit sum exceeds 0xFF (R147). -/
def carry (a b : Byte) : Byte := flagByte (decide (0xFF < a.toNat + b.toNat))

/-- 8XY5, 8XY7: no borrow, `minuend >= subtrahend` (R148, R150). -/
def notBorrow (minuend subtrahend : Byte) : Byte := flagByte (decide (subtrahend.toNat ≤ minuend.toNat))

/-- 8XY6: the old bit 0 (R149). -/
def shiftedOutRight (a : Byte) : Byte := flagByte (a.getLsbD 0)

/-- 8XYE: the old bit 7 (R151). -/
def shiftedOutLeft (a : Byte) : Byte := flagByte (a.getLsbD 7)

/-- The flag is written first and the data result second, so for X = 15 the result stands (R29). DESIGN CHOICE
(decision D6), unsafe for X or Y = 15; log 12. -/
def State.setFlagged (s : State) (x : Reg) (flag result : Byte) : State := (s.setReg vf flag).setReg x result

end Sys2Proof.Machine
end

