-- ==== Sys2Proof/Machine/Operands.lean ====
section
/-! DEFINITION. The operand forms: the effective address I + k (43_index_memory.md), the indexed jump target, the skip, the glyph
address, the key code, the decimal digits. -/

namespace Sys2Proof.Machine

/-- The effective address of the k-th byte of a transfer, "(I + k) mod 4096" (43_index_memory.md, R60). -/
def State.ea (s : State) (k : Nat) : Nat := (s.i.toNat + k) % Config.memSize

/-- An 8-bit value entering a 12-bit sum, zero-extended (R10, `zext_12`). -/
def zext (b : Byte) : Word := b.setWidth 16

/-- The target of BNNN before the mask on `pc`: `NNN + V[0]` (R123). -/
def State.indexedTarget (s : State) (nnn : Word) : Word := low12 nnn + zext (s.reg 0)

/-- Pass over the next instruction word: add 2 to the advanced `pc`, or not (41_skip.md). -/
def State.skipIf (s : State) (c : Bool) : State := if c then s.setPc (s.pc + 2) else s

/-- The address of a glyph: the whole byte times 5 (R162). -/
def glyphAddr (b : Byte) : Word := zext b * 5

/-- The key code a register presents to the port: its low 4 bits (R180). DESIGN CHOICE (decision D8), unsafe; log 14. -/
def keyCode (b : Byte) : Nat := (b &&& 0x0F#8).toNat

/-- The hundreds digit (R163). -/
def hundreds (b : Byte) : Byte := BitVec.ofNat 8 (b.toNat / 100)

/-- The tens digit (R163). -/
def tens (b : Byte) : Byte := BitVec.ofNat 8 (b.toNat / 10 % 10)

/-- The units digit (R163). -/
def units (b : Byte) : Byte := BitVec.ofNat 8 (b.toNat % 10)

/-- `for k = 0 to n - 1, ascending: MemWrite(I + k, 1, V[k])` (R164). -/
def storeLoop : Nat → State → State
  | 0, s => s
  | n + 1, s =>
    let t := storeLoop n s
    t.writeByte (t.ea n) (t.reg (Fin.ofNat 16 n))

/-- `for k = 0 to n - 1, ascending: V[k] <- MemRead(I + k, 1)` (R165). -/
def loadLoop : Nat → State → State
  | 0, s => s
  | n + 1, s =>
    let t := loadLoop n s
    t.setReg (Fin.ofNat 16 n) (t.readByte (t.ea n))

/-- The n sprite rows at I, ascending: `rows[r] = MemRead(I + r, 1)` (R173). -/
def State.spriteRows (s : State) (n : Nat) : List Byte := (List.range n).map fun r => s.readByte (s.ea r)

end Sys2Proof.Machine
end

