-- ==== Sys2Proof/Machine/Alu.lean ====
section
/-! DEFINITION. Register load, ALU and random instructions (42_alu.md). Flag and result are both computed from the operands read
before any write (R11, R140). -/

namespace Sys2Proof.Machine

/-- 6XNN LD Vx, NN (R141). -/
def execLdImm (x : Reg) (nn : Byte) (s : State) : Result := .next (s.setReg x nn)

/-- 7XNN ADD Vx, NN: no flag (R142). -/
def execAddImm (x : Reg) (nn : Byte) (s : State) : Result := .next (s.setReg x (s.reg x + nn))

/-- 8XY0 LD Vx, Vy (R143). -/
def execLdReg (x y : Reg) (s : State) : Result := .next (s.setReg x (s.reg y))

/-- 8XY1 OR Vx, Vy (R144). -/
def execOrReg (x y : Reg) (s : State) : Result := .next (s.setReg x (s.reg x ||| s.reg y))

/-- 8XY2 AND Vx, Vy (R145). -/
def execAndReg (x y : Reg) (s : State) : Result := .next (s.setReg x (s.reg x &&& s.reg y))

/-- 8XY3 XOR Vx, Vy (R146). -/
def execXorReg (x y : Reg) (s : State) : Result := .next (s.setReg x (s.reg x ^^^ s.reg y))

/-- 8XY4 ADD Vx, Vy (R147). -/
def execAddReg (x y : Reg) (s : State) : Result :=
  .next (s.setFlagged x (carry (s.reg x) (s.reg y)) (s.reg x + s.reg y))

/-- 8XY5 SUB Vx, Vy (R148). -/
def execSubReg (x y : Reg) (s : State) : Result :=
  .next (s.setFlagged x (notBorrow (s.reg x) (s.reg y)) (s.reg x - s.reg y))

/-- 8XY6 SHR Vx: V[x] in place, y ignored (R149). -/
def execShr (x _y : Reg) (s : State) : Result :=
  .next (s.setFlagged x (shiftedOutRight (s.reg x)) (s.reg x >>> 1))

/-- 8XY7 SUBN Vx, Vy (R150). -/
def execSubnReg (x y : Reg) (s : State) : Result :=
  .next (s.setFlagged x (notBorrow (s.reg y) (s.reg x)) (s.reg y - s.reg x))

/-- 8XYE SHL Vx: V[x] in place, y ignored (R151). -/
def execShl (x _y : Reg) (s : State) : Result :=
  .next (s.setFlagged x (shiftedOutLeft (s.reg x)) (s.reg x <<< 1))

/-- CXNN RND Vx, NN (R152). -/
def execRnd (x : Reg) (nn : Byte) (s : State) : Result := .next (s.setReg x (s.randomByte &&& nn))

end Sys2Proof.Machine
end

