-- ==== Sys2Proof/Machine/Display.lean ====
section
/-! DEFINITION. The framebuffer operations of the compositor (R170, R171) and the instructions 00E0 and DXYN (44_display.md). -/

namespace Sys2Proof.Machine

/-- `FB[y][x]` (R38), bit x of row y. DESIGN CHOICE, safe; log 25. -/
def pixel (f : Framebuffer) (y : Fin Config.fbHeight) (x : Fin Config.fbWidth) : Bool := f[y.val].getLsbD x.val

/-- A row with one pixel changed. -/
def setColumn (row : BitVec Config.fbWidth) (x : Nat) (b : Bool) : BitVec Config.fbWidth :=
  if b then row ||| (1#64 <<< x) else row &&& ~~~(1#64 <<< x)

/-- `FB[y][x] <- b` (R38). -/
def setPixel (f : Framebuffer) (y : Fin Config.fbHeight) (x : Fin Config.fbWidth) (b : Bool) : Framebuffer :=
  f.set y.val (setColumn f[y.val] x.val b)

/-- `ClearFB()`: every pixel false (R171). -/
def clearedFb : Framebuffer := Vector.replicate Config.fbHeight 0

/-- One pixel of DrawSprite: XOR a sprite bit in at `(x mod 64, y mod 32)`; a collision is a set pixel turned off (R170;
DEDUCED against a remark of R173, safe; log 9). -/
def plot (x y : Nat) (bit : Bool) : Framebuffer × Bool → Framebuffer × Bool
  | (f, collision) =>
    let dx := Fin.ofNat Config.fbWidth x
    let dy := Fin.ofNat Config.fbHeight y
    let old := pixel f dy dx
    let new := old ^^ bit
    (setPixel f dy dx new, collision || (old && !new))

/-- The first n bits of one sprite row, the most significant leftmost: bit b at column x + b (R170). -/
def drawRow (x y : Nat) (row : Byte) : Nat → Framebuffer × Bool → Framebuffer × Bool
  | 0, acc => acc
  | b + 1, acc => plot (x + b) y (row.getLsbD (7 - b)) (drawRow x y row b acc)

/-- The rows of a sprite, row r at line y + r (R170). -/
def drawRows (x : Nat) : Nat → List Byte → Framebuffer × Bool → Framebuffer × Bool
  | _, [], acc => acc
  | y, row :: rows, acc => drawRows x (y + 1) rows (drawRow x y row 8 acc)

/-- `DrawSprite(x, y, rows)`: the framebuffer after, and the collision (R170). -/
def drawSprite (f : Framebuffer) (x y : Nat) (rows : List Byte) : Framebuffer × Bool := drawRows x y rows (f, false)

/-- 00E0 CLS (R172). -/
def execCls (s : State) : Result := .next (s.setFb clearedFb)

/-- DXYN DRW Vx, Vy, N: coordinates and rows are read first, then the framebuffer and VF are written (R173). -/
def execDrw (x y : Reg) (n : Nat) (s : State) : Result :=
  let d := drawSprite s.fb (s.reg x).toNat (s.reg y).toNat (s.spriteRows n)
  .next ((s.setFb d.1).setReg vf (flagByte d.2))

end Sys2Proof.Machine
end

