-- ==== Sys2Proof/Machine/Flow.lean ====
section
/-! DEFINITION. Control transfer: RET, JP, CALL, JP V0 (40_flow.md). On entry `pc` is already the address of the instruction plus 2
(R90). -/

namespace Sys2Proof.Machine

/-- 00EE RET (R120). -/
def execRet (s : State) : Result :=
  match s.pop with
  | some (a, t) => .next (t.setPc a)
  | none => .next (s.raise .stackUnderflow)

/-- 1NNN JP NNN (R121). -/
def execJp (nnn : Word) (s : State) : Result := .next (s.setPc nnn)

/-- 2NNN CALL NNN (R122). -/
def execCall (nnn : Word) (s : State) : Result :=
  match s.push s.pc with
  | some t => .next (t.setPc nnn)
  | none => .next (s.raise .stackOverflow)

/-- BNNN JP V0, NNN (R123). -/
def execJpV0 (nnn : Word) (s : State) : Result := .next (s.setPc (s.indexedTarget nnn))

end Sys2Proof.Machine
end

