-- ==== Sys2Proof/Machine/Index.lean ====
section
/-! DEFINITION. The index register, the BCD converter and the block transfers (43_index_memory.md). I is not changed by a
transfer. -/

namespace Sys2Proof.Machine

/-- ANNN LD I, NNN (R160). -/
def execLdI (nnn : Word) (s : State) : Result := .next (s.setI nnn)

/-- FX1E ADD I, Vx: no flag (R161). -/
def execAddI (x : Reg) (s : State) : Result := .next (s.setI (s.i + zext (s.reg x)))

/-- FX29 LD F, Vx (R162). -/
def execLdF (x : Reg) (s : State) : Result := .next (s.setI (glyphAddr (s.reg x)))

/-- FX33 LD B, Vx: hundreds, tens, units at I, I + 1, I + 2 (R163). -/
def execLdB (x : Reg) (s : State) : Result :=
  let b := s.reg x
  .next (((s.writeByte (s.ea 0) (hundreds b)).writeByte (s.ea 1) (tens b)).writeByte (s.ea 2) (units b))

/-- FX55 LD [I], Vx: V[0] to V[x] inclusive (R164). DESIGN CHOICE (decision D7), unsafe; log 13. -/
def execStoreRegs (x : Reg) (s : State) : Result := .next (storeLoop (x.val + 1) s)

/-- FX65 LD Vx, [I]: V[0] to V[x] inclusive (R165). DESIGN CHOICE (decision D7), unsafe; log 13. -/
def execLoadRegs (x : Reg) (s : State) : Result := .next (loadLoop (x.val + 1) s)

end Sys2Proof.Machine
end

