-- ==== Sys2Proof/Machine/Keys.lean ====
section
/-! DEFINITION. Key-input and timer instructions, and the engine's step while it waits for a key (45_keys_timers.md). -/

namespace Sys2Proof.Machine

/-- EX9E SKP Vx (R180). -/
def execSkp (x : Reg) (s : State) : Result := .next (s.skipIf (s.keyDown (keyCode (s.reg x))))

/-- EXA1 SKNP Vx (R181). -/
def execSknp (x : Reg) (s : State) : Result := .next (s.skipIf (!s.keyDown (keyCode (s.reg x))))

/-- FX0A LD Vx, K: the lowest key down at once, or the wait (R182). -/
def execLdVxK (x : Reg) (s : State) : Result :=
  match s.lowestKey with
  | some k => .next (s.setReg x k)
  | none => .next (s.setMode (.waitKey x))

/-- The EngineStep in mode WAITKEY(x): sample the keys, and resume when one is down (R186). -/
def State.pollKeys (s : State) (x : Reg) : State :=
  match s.lowestKey with
  | some k => (s.setReg x k).setMode .run
  | none => s

/-- FX07 LD Vx, DT (R183). -/
def execLdVxDt (x : Reg) (s : State) : Result := .next (s.setReg x s.dt)

/-- FX15 LD DT, Vx (R184). -/
def execLdDtVx (x : Reg) (s : State) : Result := .next (s.setDt (s.reg x))

/-- FX18 LD ST, Vx (R185). -/
def execLdStVx (x : Reg) (s : State) : Result := .next (s.setSt (s.reg x))

end Sys2Proof.Machine
end

