-- ==== Sys2Proof/Machine/Engine.lean ====
section
/-! DEFINITION. The engine's step in each MODE (R90, R186, R212): fetch, advance, decode, execute. -/

namespace Sys2Proof.Machine

/-- `opcode = MemRead(pc, 2)`: two byte reads, big-endian, each address modulo 4096 (R61, R90). -/
def State.fetchWord (s : State) : Word := wordOfBytes (s.readByte s.pc.toNat) (s.readByte (s.pc.toNat + 1))

/-- `pc <- (pc + 2) mod 4096`, before execution (R90). -/
def State.advance (s : State) : State := s.setPc (s.pc + 2)

/-- Fetch, advance, decode, and execute the instruction, or report an unrecognised word and do nothing else (R90, R99). -/
def State.fetchExec (s : State) : Result :=
  match decodeWord s.fetchWord with
  | some i => exec i s.advance
  | none => .next (s.advance.emit (.unknownOpcode s.fetchWord s.pc))

/-- One instruction slot: an instruction in RUN, one sample of the keys in WAITKEY, nothing in HALT (R6, R212). -/
def State.engineStep (s : State) : Result :=
  match s.mode with
  | .run => s.fetchExec
  | .waitKey x => .next (s.pollKeys x)
  | .halt _ => .next s

/-- The step of the agent whose turn it is (R6). -/
def State.takeTurn (s : State) : Turn → Result
  | .engine keys rnd => (s.present keys rnd).engineStep
  | .tick => .next s.timerTick
  | .load rom => .next (s.load rom)
  | .reset => .next s.hostReset

end Sys2Proof.Machine
end

