-- ==== Sys2Proof/Machine/Step.lean ====
section
/-! DEFINITION. One step of the machine: the agent the environment's next move names takes its step (R6). -/

namespace Sys2Proof.Machine

/-- One indivisible step (R6): an EngineStep, a TimerTick, or a host operation, as the next turn says. DESIGN CHOICE, safe
(the order of the turns log 3, decision D20 log 19, no real time log 23). -/
def step (s : State) : Host.Outcome State Fault Refusal := s.endTurn.takeTurn s.nextTurn

/-- `s` with the instruction whose word is `w` (its low `nbits` bits given, the others 0) at `pc`, the engine in RUN and the next
turn an instruction slot with the lines as they stand: the next step fetches and runs it. Stands for a load (log 10). -/
def State.withFetchWord (s : State) (nbits w : Nat) : State :=
  let word : Word := BitVec.ofNat 16 (w % 2 ^ nbits)
  let t := (s.writeByte s.pc.toNat (highByte word)).writeByte (s.pc.toNat + 1) (lowByte word)
  { t with mode := .run, turns := .engine s.keys s.rnd :: s.turns }

end Sys2Proof.Machine
end

