-- ==== Sys2Proof/Safety.lean ====
section
/-! DEFINITION. What claims call a good state and a good run: no stack fault (R212), the end of a run (R260), the invariant that
every step keeps. -/

namespace Sys2Proof

open Machine

/-- The program has not gone wrong: MODE is not HALT (R212). -/
def Safe (s : State) : Bool := s.faultLine.isNone

/-- The run waits for a key (R260: "it is waiting"). -/
def Waiting (s : State) : Bool :=
  match s.mode with
  | .waitKey _ => true
  | .run | .halt _ => false

/-- The end of a run: mode RUN at an address whose word jumps to itself (R260). DESIGN CHOICE (decision D21), safe;
log 20. -/
def Finished (s : State) : Bool :=
  decide (s.mode = .run) && (decodeWord s.fetchWord == some (.jp s.pc))

/-- A 12-bit value in its 16-bit register (R24, R30). -/
abbrev Is12Bit (a : Word) : Prop := a.toNat < 4096

/-- The invariant of every state a run reaches: `pc`, I and the stacked addresses keep their upper 4 bits zero (R24, R30, R120),
SP is at most STACK_DEPTH (R31), memory
keeps its canonical form. -/
structure Inv (s : State) : Prop where
  pc : Is12Bit s.pc
  i : Is12Bit s.i
  stk : ∀ a ∈ s.stk, Is12Bit a
  sp : s.sp ≤ s.stackDepth
  mem : s.mem.wf s.font = true

end Sys2Proof
end

