-- ==== Sys2Proof/Certificates/Slice0/Obligations.lean ====
section
/-! DEFINITION. The statements for the provers. `exec` runs on a state whose `pc` has had the fetch advance (R90), so `s.pc` is
"the address of the instruction plus 2" in every statement about `exec`. A word is written nibble by nibble from the pattern of
R96. Where a statement rests on a decision the spec marks as its own (D<n> of 92_eei_decisions.md) its docstring names it. -/

namespace Sys2Proof.Claims

open Sys2Proof.Machine

/-- Every byte of memory reads as before. -/
def MemoryKept (s t : State) : Prop := ∀ a, t.readByte a = s.readByte a

/-- Nothing but V registers differs. -/
def OnlyV (s t : State) : Prop := t = { s with v := t.v } ∧ MemoryKept s t

/-- Nothing but `pc` differs. -/
def OnlyPc (s t : State) : Prop := t = { s with pc := t.pc } ∧ MemoryKept s t

/-- Nothing but I differs. -/
def OnlyI (s t : State) : Prop := t = { s with i := t.i } ∧ MemoryKept s t

/-- Every V register but x is unchanged. -/
def VKeptBut (x : Reg) (s t : State) : Prop := ∀ k, k ≠ x → t.reg k = s.reg k

/-- Every V register but x and VF is unchanged. -/
def VKeptButFlagAnd (x : Reg) (s t : State) : Prop := ∀ k, k ≠ x → k ≠ 15 → t.reg k = s.reg k

/-- The core's state is unchanged: only the model's own fields (inputs, schedule, output record) may differ. -/
def CoreKept (s t : State) : Prop :=
  t = { s with keys := t.keys, rnd := t.rnd, turns := t.turns, turnNo := t.turnNo, out := t.out }

/-- The state an agent's step starts from: the turn is used up and the last step's output record is gone. -/
def turnTaken (s : State) : State :=
  { s with turns := s.turns.tail, turnNo := if s.turns.isEmpty then s.turnNo + 1 else s.turnNo, out := none }

/-- `turnTaken` with the lines the slot presents. -/
def slotTaken (s : State) (keys : BitVec 16) (rnd : Byte) : State := { turnTaken s with keys := keys, rnd := rnd }

/-- The address two bytes on, modulo 4096. -/
def plusTwo (a : Word) : Word := BitVec.ofNat 16 ((a.toNat + 2) % 4096)

/-- Some 1 bit of the sprite `rows`, placed at column x and line y, falls on the pixel (py, px) (R170). -/
def SpriteSets (x y : Nat) (rows : List Byte) (py : Fin 32) (px : Fin 64) : Prop :=
  ∃ r, r < rows.length ∧ ∃ b, b < 8 ∧ (x + b) % 64 = px.val ∧ (y + r) % 32 = py.val ∧
    (rows.getD r 0).getLsbD (7 - b) = true

/-- Some 1 bit of the sprite falls on a pixel that is set. -/
def SpriteHits (f : Framebuffer) (x y : Nat) (rows : List Byte) : Prop :=
  ∃ py px, SpriteSets x y rows py px ∧ pixel f py px = true

/-- The V registers an instruction may write (R22, R27): its destination, and VF for those that write the flag. -/
def writesReg : Instr → Reg → Bool
  | .ldImm x _, k | .addImm x _, k | .ldReg x _, k | .orReg x _, k | .andReg x _, k | .xorReg x _, k
  | .rnd x _, k | .ldVxDt x, k | .ldVxK x, k => k == x
  | .addReg x _, k | .subReg x _, k | .shr x _, k | .subnReg x _, k | .shl x _, k => k == x || k == 15
  | .drw _ _ _, k => k == 15
  | .loadRegs x, k => decide (k ≤ x)
  | .cls, _ | .ret, _ | .jp _, _ | .call _, _ | .seImm _ _, _ | .sneImm _ _, _ | .seReg _ _, _ | .sneReg _ _, _
  | .ldI _, _ | .jpV0 _, _ | .skp _, _ | .sknp _, _ | .ldDtVx _, _ | .ldStVx _, _ | .addI _, _ | .ldF _, _
  | .ldB _, _ | .storeRegs _, _ => false

/-- What a byte of memory reads as after `bytes` are stored from I on, one after the other, addresses modulo 4096. -/
def byteAfter (s : State) (bytes : List Byte) (a : Nat) : Byte :=
  if h : (a % 4096 + 4096 - s.i.toNat % 4096) % 4096 < bytes.length then bytes[(a % 4096 + 4096 - s.i.toNat % 4096) % 4096]
  else s.readByte a

/-- The big-endian word at the advanced `pc` after `bytes` are stored from I on. -/
def wordAfter (s : State) (bytes : List Byte) : Word := byteAfter s bytes s.pc.toNat ++ byteAfter s bytes (s.pc.toNat + 1)

/-- The state after a load of `rom` or, with the empty ROM, a reset: the table of R44 (the zeros, `pc` and MODE are decision D13,
the reserved range left alone D14), with the machine's FONT and STACK_DEPTH. -/
structure Reinitialised (s t : State) (rom : List Byte) : Prop where
  fontBytes : ∀ k : Fin 80, t.readByte k.val = s.font[k.val]
  reserved : ∀ a, 0x050 ≤ a → a < 0x200 → t.readByte a = s.readByte a
  program : ∀ k, k < rom.length → t.readByte (0x200 + k) = rom.getD k 0
  cleared : ∀ a, 0x200 + rom.length ≤ a → a < 4096 → t.readByte a = 0
  registers : ∀ k, t.reg k = 0
  specials : t.i = 0 ∧ t.pc = 0x200 ∧ t.dt = 0 ∧ t.st = 0 ∧ t.mode = .run
  stack : t.sp = 0 ∧ t.stk = List.replicate s.stackDepth 0
  screen : ∀ y x, pixel t.fb y x = false
  parameter : t.font = s.font

end Sys2Proof.Claims

open Sys2Proof Sys2Proof.Machine Sys2Proof.Claims

/-! ## Control transfer -/

/-- 00EE (R120), whatever the depth of the stack: the popped value goes to `pc`, or the underflow entry of R211 (decision D4). -/
def Obligations.RetPopsOrUnderflows : Prop := ∀ s : State,
  decodeWord 0x00EE#16 = some .ret ∧
  (∀ k a, s.sp = k + 1 → s.stk[k]? = some a → ∃ t, exec .ret s = .next t ∧ t.sp = k ∧
    t.pc.toNat = a.toNat % 4096 ∧ t = { s with pc := t.pc, sp := t.sp } ∧ MemoryKept s t) ∧
  (s.sp = 0 → exec .ret s = .next { s with mode := .halt .stackUnderflow })

/-- 1NNN (R121). -/
def Obligations.JumpSetsPc : Prop := ∀ (nnn : BitVec 12) (s : State),
  decodeWord (0x1#4 ++ nnn) = some (.jp (nnn.setWidth 16)) ∧
  ∃ t, exec (.jp (nnn.setWidth 16)) s = .next t ∧ t.pc.toNat = nnn.toNat ∧ OnlyPc s t

/-- 2NNN (R122): the address of the next instruction is pushed and `pc` set, or the overflow entry of R211, whatever the
depth of the stack (the bound and the entry: decisions D3, D4). -/
def Obligations.CallPushesOrOverflows : Prop := ∀ (nnn : BitVec 12) (s : State),
  decodeWord (0x2#4 ++ nnn) = some (.call (nnn.setWidth 16)) ∧
  (s.sp < s.stackDepth → ∃ t, exec (.call (nnn.setWidth 16)) s = .next t ∧ t.sp = s.sp + 1 ∧
    t.stackDepth = s.stackDepth ∧ t.stk[s.sp]? = some s.pc ∧ (∀ j, j ≠ s.sp → t.stk[j]? = s.stk[j]?) ∧
    t.pc.toNat = nnn.toNat ∧ t = { s with pc := t.pc, sp := t.sp, stk := t.stk } ∧ MemoryKept s t) ∧
  (s.stackDepth ≤ s.sp → exec (.call (nnn.setWidth 16)) s = .next { s with mode := .halt .stackOverflow })

/-- BNNN (R123): V0 whatever bits 11:8 are; the sum modulo 4096 is decision D2. -/
def Obligations.IndexedJumpAddsV0 : Prop := ∀ (nnn : BitVec 12) (s : State),
  decodeWord (0xB#4 ++ nnn) = some (.jpV0 (nnn.setWidth 16)) ∧
  ∃ t, exec (.jpV0 (nnn.setWidth 16)) s = .next t ∧ t.pc.toNat = (nnn.toNat + (s.reg 0).toNat) % 4096 ∧ OnlyPc s t

/-! ## Skips -/

/-- 3XNN and 4XNN (R130, R131): complements; the wrap of `pc` is decision D2. -/
def Obligations.SkipsOnImmediate : Prop := ∀ (x : Reg) (nn : Byte) (s : State),
  decodeWord (0x3#4 ++ regNibble x ++ nn) = some (.seImm x nn) ∧
  decodeWord (0x4#4 ++ regNibble x ++ nn) = some (.sneImm x nn) ∧
  ∃ t u, exec (.seImm x nn) s = .next t ∧ exec (.sneImm x nn) s = .next u ∧ OnlyPc s t ∧ OnlyPc s u ∧
    (s.reg x = nn → t.pc = plusTwo s.pc ∧ u.pc = s.pc) ∧ (s.reg x ≠ nn → t.pc = s.pc ∧ u.pc = plusTwo s.pc)

/-- 5XY0 and 9XY0 (R132, R133): complements; the wrap of `pc` is decision D2. -/
def Obligations.SkipsOnRegisters : Prop := ∀ (x y : Reg) (s : State),
  decodeWord (0x5#4 ++ regNibble x ++ regNibble y ++ 0x0#4) = some (.seReg x y) ∧
  decodeWord (0x9#4 ++ regNibble x ++ regNibble y ++ 0x0#4) = some (.sneReg x y) ∧
  ∃ t u, exec (.seReg x y) s = .next t ∧ exec (.sneReg x y) s = .next u ∧ OnlyPc s t ∧ OnlyPc s u ∧
    (s.reg x = s.reg y → t.pc = plusTwo s.pc ∧ u.pc = s.pc) ∧ (s.reg x ≠ s.reg y → t.pc = s.pc ∧ u.pc = plusTwo s.pc)

/-! ## Register load, ALU, random -/

/-- 6XNN (R141). -/
def Obligations.LoadImmediate : Prop := ∀ (x : Reg) (nn : Byte) (s : State),
  decodeWord (0x6#4 ++ regNibble x ++ nn) = some (.ldImm x nn) ∧
  ∃ t, exec (.ldImm x nn) s = .next t ∧ t.reg x = nn ∧ VKeptBut x s t ∧ OnlyV s t

/-- 7XNN (R142): VF is not written unless it is V[X]. -/
def Obligations.AddImmediateWrapsWithoutFlag : Prop := ∀ (x : Reg) (nn : Byte) (s : State),
  decodeWord (0x7#4 ++ regNibble x ++ nn) = some (.addImm x nn) ∧
  ∃ t, exec (.addImm x nn) s = .next t ∧ (t.reg x).toNat = ((s.reg x).toNat + nn.toNat) % 256 ∧ VKeptBut x s t ∧ OnlyV s t

/-- 8XY0 (R143). -/
def Obligations.CopyRegister : Prop := ∀ (x y : Reg) (s : State),
  decodeWord (0x8#4 ++ regNibble x ++ regNibble y ++ 0x0#4) = some (.ldReg x y) ∧
  ∃ t, exec (.ldReg x y) s = .next t ∧ t.reg x = s.reg y ∧ VKeptBut x s t ∧ OnlyV s t

/-- 8XY1, 8XY2, 8XY3 (R144, R145, R146): bit by bit, VF neither written nor cleared. -/
def Obligations.LogicalOperationsBitByBit : Prop := ∀ (x y : Reg) (s : State),
  decodeWord (0x8#4 ++ regNibble x ++ regNibble y ++ 0x1#4) = some (.orReg x y) ∧
  decodeWord (0x8#4 ++ regNibble x ++ regNibble y ++ 0x2#4) = some (.andReg x y) ∧
  decodeWord (0x8#4 ++ regNibble x ++ regNibble y ++ 0x3#4) = some (.xorReg x y) ∧
  ∃ t u v, exec (.orReg x y) s = .next t ∧ exec (.andReg x y) s = .next u ∧ exec (.xorReg x y) s = .next v ∧
    (∀ b, b < 8 →
      (t.reg x).getLsbD b = ((s.reg x).getLsbD b || (s.reg y).getLsbD b) ∧
      (u.reg x).getLsbD b = ((s.reg x).getLsbD b && (s.reg y).getLsbD b) ∧
      (v.reg x).getLsbD b = ((s.reg x).getLsbD b ^^ (s.reg y).getLsbD b)) ∧
    VKeptBut x s t ∧ VKeptBut x s u ∧ VKeptBut x s v ∧ OnlyV s t ∧ OnlyV s u ∧ OnlyV s v

/-- 8XY4 (R147). That X = 15 keeps the sum and Y = 15 adds the old VF is decision D6 (operands latched, result written last). -/
def Obligations.AddRegistersWithCarry : Prop := ∀ (x y : Reg) (s : State),
  decodeWord (0x8#4 ++ regNibble x ++ regNibble y ++ 0x4#4) = some (.addReg x y) ∧
  ∃ t, exec (.addReg x y) s = .next t ∧
    (t.reg x).toNat = ((s.reg x).toNat + (s.reg y).toNat) % 256 ∧
    (x ≠ 15 → t.reg 15 = if (s.reg x).toNat + (s.reg y).toNat > 0xFF then 1 else 0) ∧
    VKeptButFlagAnd x s t ∧ OnlyV s t

/-- 8XY5 and 8XY7 (R148, R150): the difference plus 256 on a borrow, the flag the inverse borrow; decision D6 for X or Y = 15. -/
def Obligations.SubtractionsWithNotBorrow : Prop := ∀ (x y : Reg) (s : State),
  decodeWord (0x8#4 ++ regNibble x ++ regNibble y ++ 0x5#4) = some (.subReg x y) ∧
  decodeWord (0x8#4 ++ regNibble x ++ regNibble y ++ 0x7#4) = some (.subnReg x y) ∧
  ∃ t u, exec (.subReg x y) s = .next t ∧ exec (.subnReg x y) s = .next u ∧
    (t.reg x).toNat = ((s.reg x).toNat + 256 - (s.reg y).toNat) % 256 ∧
    (u.reg x).toNat = ((s.reg y).toNat + 256 - (s.reg x).toNat) % 256 ∧
    (x ≠ 15 → t.reg 15 = if (s.reg x).toNat ≥ (s.reg y).toNat then 1 else 0) ∧
    (x ≠ 15 → u.reg 15 = if (s.reg y).toNat ≥ (s.reg x).toNat then 1 else 0) ∧
    VKeptButFlagAnd x s t ∧ VKeptButFlagAnd x s u ∧ OnlyV s t ∧ OnlyV s u

/-- 8XY6 and 8XYE (R149, R151): one position, V[x] in place, any y; decision D6 for X = 15. -/
def Obligations.ShiftsByOneWithLostBit : Prop := ∀ (x y : Reg) (s : State),
  decodeWord (0x8#4 ++ regNibble x ++ regNibble y ++ 0x6#4) = some (.shr x y) ∧
  decodeWord (0x8#4 ++ regNibble x ++ regNibble y ++ 0xE#4) = some (.shl x y) ∧
  ∃ t u, exec (.shr x y) s = .next t ∧ exec (.shl x y) s = .next u ∧
    (t.reg x).toNat = (s.reg x).toNat / 2 ∧ (u.reg x).toNat = (s.reg x).toNat * 2 % 256 ∧
    (x ≠ 15 → (t.reg 15).toNat = (s.reg x).toNat % 2 ∧ (u.reg 15).toNat = (s.reg x).toNat / 128) ∧
    VKeptButFlagAnd x s t ∧ VKeptButFlagAnd x s u ∧ OnlyV s t ∧ OnlyV s u

/-- CXNN (R152) for every byte on the random port, which is unconstrained (decision D10, log 4). -/
def Obligations.RandomByteMasked : Prop := ∀ (x : Reg) (nn : Byte) (s : State),
  decodeWord (0xC#4 ++ regNibble x ++ nn) = some (.rnd x nn) ∧
  ∃ t, exec (.rnd x nn) s = .next t ∧
    (∀ b, b < 8 → (t.reg x).getLsbD b = (s.rnd.getLsbD b && nn.getLsbD b)) ∧ VKeptBut x s t ∧ OnlyV s t

/-! ## Index register, BCD, block transfers -/

/-- ANNN (R160). -/
def Obligations.LoadIndex : Prop := ∀ (nnn : BitVec 12) (s : State),
  decodeWord (0xA#4 ++ nnn) = some (.ldI (nnn.setWidth 16)) ∧
  ∃ t, exec (.ldI (nnn.setWidth 16)) s = .next t ∧ t.i.toNat = nnn.toNat ∧ OnlyI s t

/-- FX1E (R161): no flag. -/
def Obligations.AddToIndexWrapsAt12Bits : Prop := ∀ (x : Reg) (s : State),
  decodeWord (0xF#4 ++ regNibble x ++ 0x1E#8) = some (.addI x) ∧
  ∃ t, exec (.addI x) s = .next t ∧ t.i.toNat = (s.i.toNat + (s.reg x).toNat) % 4096 ∧ OnlyI s t

/-- FX29 (R162): the whole byte times 5; the product never exceeds 0xFFF. -/
def Obligations.PointIndexAtGlyph : Prop := ∀ (x : Reg) (s : State),
  decodeWord (0xF#4 ++ regNibble x ++ 0x29#8) = some (.ldF x) ∧
  ∃ t, exec (.ldF x) s = .next t ∧ t.i.toNat = (s.reg x).toNat * 5 ∧ OnlyI s t

/-- FX33 (R163): one digit a byte at I, I + 1, I + 2; the wrap of the addresses is decision D1. -/
def Obligations.StoreDecimalDigits : Prop := ∀ (x : Reg) (s : State),
  decodeWord (0xF#4 ++ regNibble x ++ 0x33#8) = some (.ldB x) ∧
  ∃ t, exec (.ldB x) s = .next t ∧
    (t.readByte (s.ea 0)).toNat = (s.reg x).toNat / 100 ∧
    (t.readByte (s.ea 1)).toNat = (s.reg x).toNat / 10 % 10 ∧
    (t.readByte (s.ea 2)).toNat = (s.reg x).toNat % 10 ∧
    (∀ a, a % 4096 ≠ s.ea 0 → a % 4096 ≠ s.ea 1 → a % 4096 ≠ s.ea 2 → t.readByte a = s.readByte a) ∧
    t = { s with mem := t.mem }

/-- FX55 (R164): V[0] to V[X] inclusive, I unchanged (decision D7); the wrap of the addresses is decision D1. -/
def Obligations.StoreRegistersInclusive : Prop := ∀ (x : Reg) (s : State),
  decodeWord (0xF#4 ++ regNibble x ++ 0x55#8) = some (.storeRegs x) ∧
  ∃ t, exec (.storeRegs x) s = .next t ∧
    (∀ k : Reg, k ≤ x → t.readByte (s.ea k.val) = s.reg k) ∧
    (∀ a, (∀ k : Reg, k ≤ x → a % 4096 ≠ s.ea k.val) → t.readByte a = s.readByte a) ∧
    t = { s with mem := t.mem }

/-- FX65 (R165): V[0] to V[X] inclusive, I unchanged (decision D7); the wrap of the addresses is decision D1. -/
def Obligations.LoadRegistersInclusive : Prop := ∀ (x : Reg) (s : State),
  decodeWord (0xF#4 ++ regNibble x ++ 0x65#8) = some (.loadRegs x) ∧
  ∃ t, exec (.loadRegs x) s = .next t ∧
    (∀ k : Reg, k ≤ x → t.reg k = s.readByte (s.ea k.val)) ∧
    (∀ k : Reg, x < k → t.reg k = s.reg k) ∧ OnlyV s t

/-! ## Framebuffer -/

/-- 00E0 (R172), the operation ClearFB (R171). -/
def Obligations.ClearScreen : Prop := ∀ s : State,
  decodeWord 0x00E0#16 = some .cls ∧
  ∃ t, exec .cls s = .next t ∧ (∀ y x, pixel t.fb y x = false) ∧ t = { s with fb := t.fb } ∧ MemoryKept s t

/-- DrawSprite (R170): for a sprite of up to 15 rows the loop XORs each sprite bit into its own pixel, wrapping in both
directions, and reports a collision exactly when a 1 bit falls on a set pixel. -/
def Obligations.DrawSpriteXorsAndReportsCollision : Prop := ∀ (f : Framebuffer) (x y : Nat) (rows : List Byte),
  rows.length ≤ 15 →
  (∀ py px, (SpriteSets x y rows py px → pixel (drawSprite f x y rows).1 py px = !pixel f py px) ∧
    (¬ SpriteSets x y rows py px → pixel (drawSprite f x y rows).1 py px = pixel f py px)) ∧
  ((drawSprite f x y rows).2 = true ↔ SpriteHits f x y rows)

/-- DXYN (R173): the N bytes at I as rows, drawn at (V[X], V[Y]) read before VF is written (decision D6); the wrap of the
addresses is decision D1. -/
def Obligations.DrawSpriteFromMemory : Prop := ∀ (x y : Reg) (n : BitVec 4) (s : State),
  decodeWord (0xD#4 ++ regNibble x ++ regNibble y ++ n) = some (.drw x y n.toNat) ∧
  ∃ t rows, exec (.drw x y n.toNat) s = .next t ∧ rows.length = n.toNat ∧
    (∀ r, r < n.toNat → rows.getD r 0 = s.readByte (s.ea r)) ∧
    (∀ py px, (SpriteSets (s.reg x).toNat (s.reg y).toNat rows py px → pixel t.fb py px = !pixel s.fb py px) ∧
      (¬ SpriteSets (s.reg x).toNat (s.reg y).toNat rows py px → pixel t.fb py px = pixel s.fb py px)) ∧
    (SpriteHits s.fb (s.reg x).toNat (s.reg y).toNat rows → t.reg 15 = 1) ∧
    (¬ SpriteHits s.fb (s.reg x).toNat (s.reg y).toNat rows → t.reg 15 = 0) ∧
    VKeptBut 15 s t ∧ t = { s with fb := t.fb, v := t.v } ∧ MemoryKept s t

/-- Drawing the same sprite twice at the same place restores the framebuffer (R173), and the second draw reports a collision
exactly when a 1 bit fell on a pixel that was off before the first (what R170 gives; log 9). -/
def Obligations.DrawingTwiceRestores : Prop := ∀ (f : Framebuffer) (x y : Nat) (rows : List Byte), rows.length ≤ 15 →
  (drawSprite (drawSprite f x y rows).1 x y rows).1 = f ∧
  ((drawSprite (drawSprite f x y rows).1 x y rows).2 = true ↔
    ∃ py px, SpriteSets x y rows py px ∧ pixel f py px = false)

/-! ## Keys and timers -/

/-- EX9E and EXA1 (R180, R181): complements; the low 4 bits of V[X] select the key (decision D8); the wrap of `pc` is D2. -/
def Obligations.SkipsOnKey : Prop := ∀ (x : Reg) (s : State),
  decodeWord (0xE#4 ++ regNibble x ++ 0x9E#8) = some (.skp x) ∧
  decodeWord (0xE#4 ++ regNibble x ++ 0xA1#8) = some (.sknp x) ∧
  ∃ t u, exec (.skp x) s = .next t ∧ exec (.sknp x) s = .next u ∧ OnlyPc s t ∧ OnlyPc s u ∧
    (s.keys.getLsbD ((s.reg x).toNat % 16) = true → t.pc = plusTwo s.pc ∧ u.pc = s.pc) ∧
    (s.keys.getLsbD ((s.reg x).toNat % 16) = false → t.pc = s.pc ∧ u.pc = plusTwo s.pc)

/-- FX0A (R182): the lowest key down at once, or WAITKEY(X); level-sensitive, lowest code: decision D9. -/
def Obligations.WaitForKeyTakesLowestOrWaits : Prop := ∀ (x : Reg) (s : State),
  decodeWord (0xF#4 ++ regNibble x ++ 0x0A#8) = some (.ldVxK x) ∧
  (∀ k : Fin 16, s.keys.getLsbD k.val = true → (∀ j : Fin 16, j < k → s.keys.getLsbD j.val = false) →
    ∃ t, exec (.ldVxK x) s = .next t ∧ (t.reg x).toNat = k.val ∧ VKeptBut x s t ∧ OnlyV s t) ∧
  (s.keys = 0 → exec (.ldVxK x) s = .next { s with mode := .waitKey x })

/-- FX07 (R183). -/
def Obligations.ReadDelayTimer : Prop := ∀ (x : Reg) (s : State),
  decodeWord (0xF#4 ++ regNibble x ++ 0x07#8) = some (.ldVxDt x) ∧
  ∃ t, exec (.ldVxDt x) s = .next t ∧ t.reg x = s.dt ∧ VKeptBut x s t ∧ OnlyV s t

/-- FX15 (R184). -/
def Obligations.SetDelayTimer : Prop := ∀ (x : Reg) (s : State),
  decodeWord (0xF#4 ++ regNibble x ++ 0x15#8) = some (.ldDtVx x) ∧
  ∃ t, exec (.ldDtVx x) s = .next t ∧ t.dt = s.reg x ∧ t = { s with dt := t.dt } ∧ MemoryKept s t

/-- FX18 (R185): the sound line follows at once. -/
def Obligations.SetSoundTimer : Prop := ∀ (x : Reg) (s : State),
  decodeWord (0xF#4 ++ regNibble x ++ 0x18#8) = some (.ldStVx x) ∧
  ∃ t, exec (.ldStVx x) s = .next t ∧ t.st = s.reg x ∧ (t.sound = true ↔ (s.reg x).toNat > 0) ∧
    t = { s with st := t.st } ∧ MemoryKept s t

/-- The TimerTick step (R216). -/
def Obligations.TimerTickCountsBothDown : Prop := ∀ s : State,
  (s.dt.toNat > 0 → (s.timerTick).dt.toNat + 1 = s.dt.toNat) ∧ (s.dt.toNat = 0 → (s.timerTick).dt.toNat = 0) ∧
  (s.st.toNat > 0 → (s.timerTick).st.toNat + 1 = s.st.toNat) ∧ (s.st.toNat = 0 → (s.timerTick).st.toNat = 0) ∧
  s.timerTick = { s with dt := (s.timerTick).dt, st := (s.timerTick).st } ∧ MemoryKept s s.timerTick

/-! ## Decoding -/

/-- A few words of each format, written out from R96; those with top nibble 5 and 9 rest on decision D17. -/
def Obligations.SampleWordsDecode : Prop :=
  decode [0x12, 0x34] = .ok (.jp 0x234, []) ∧ decode [0xD7, 0xA5] = .ok (.drw 7 0xA 5, []) ∧
  decode [0x8A, 0xB6] = .ok (.shr 0xA 0xB, []) ∧ decode [0x3F, 0x01] = .ok (.seImm 15 1, []) ∧
  decode [0xF3, 0x0A] = .ok (.ldVxK 3, []) ∧ decode [0x00, 0xEE] = .ok (.ret, []) ∧
  decode [0x10, 0xE0] = .ok (.jp 0x0E0, []) ∧ decode [0x00, 0x00] = .error (.unknownOpcode 0x0000) ∧
  decode [0x51, 0x21] = .error (.unknownOpcode 0x5121) ∧ decode [0x9A, 0xB0] = .ok (.sneReg 0xA 0xB, [])

/-- The bytes of every well-formed instruction decode to it, whatever follows them (R91, R92, R96). -/
def Obligations.DecodeOfEncode : Prop := ∀ (i : Instr) (rest : List Byte), i.wellFormed = true →
  decode (encodeBytes i ++ rest) = .ok (i, rest)

/-- A word that decodes is the encoding of the well-formed instruction it decodes to: no bit of it is dropped. That 5XYN
and 9XYN with N not 0 do not decode is the model's choice (decision D17; log 16, unsafe). -/
def Obligations.EncodeOfDecode : Prop := ∀ (w : Word) (i : Instr), decodeWord w = some i →
  i.wellFormed = true ∧ encode i = w

/-- The unrecognised words are exactly those of R100 (the spec's own derivation; 5XYN and 9XYN by decision D17). -/
def Obligations.UnrecognisedWords : Prop := ∀ (a b c d : BitVec 4),
  decodeWord (a ++ b ++ c ++ d) = none ↔
    (a = 0x0#4 ∧ (b ++ c ++ d) ≠ 0x0E0#12 ∧ (b ++ c ++ d) ≠ 0x0EE#12) ∨
    (a = 0x5#4 ∧ d ≠ 0x0#4) ∨ (a = 0x9#4 ∧ d ≠ 0x0#4) ∨
    (a = 0x8#4 ∧ d ∈ [0x8#4, 0x9#4, 0xA#4, 0xB#4, 0xC#4, 0xD#4, 0xF#4]) ∨
    (a = 0xE#4 ∧ (c ++ d) ∉ [0x9E#8, 0xA1#8]) ∨
    (a = 0xF#4 ∧ (c ++ d) ∉ [0x07#8, 0x0A#8, 0x15#8, 0x18#8, 0x1E#8, 0x29#8, 0x33#8, 0x55#8, 0x65#8])

/-- No word matches two rows of the opcode map (R97, the spec's own derivation). -/
def Obligations.OpcodePatternsDisjoint : Prop :=
  opTable.Pairwise fun p q => ∀ w, ¬ (w &&& p.mask = p.pat ∧ w &&& q.mask = q.pat)

/-! ## Steps -/

/-- The engine's slot in RUN (R90): when the two bytes at `pc`, high byte first, decode to an instruction, the step is `exec` of it
after the fetch advance (modulo 4096: decision D2), with the slot's lines presented (log 3). -/
def Obligations.StepRunsTheDecodedInstruction : Prop :=
  ∀ (s : State) (i : Instr) (keys : BitVec 16) (rnd : Byte), s.nextTurn = .engine keys rnd → s.mode = .run →
    decode [s.readByte s.pc.toNat, s.readByte (s.pc.toNat + 1)] = .ok (i, []) →
    step s = exec i { slotTaken s keys rnd with pc := plusTwo s.pc }

/-- An unrecognised word (R99): the fetch advance and the diagnostic record (its shape: decision D19), nothing else. -/
def Obligations.UnrecognisedWordOnlyAdvances : Prop :=
  ∀ (s : State) (w : Word) (keys : BitVec 16) (rnd : Byte), s.nextTurn = .engine keys rnd → s.mode = .run →
    decode [s.readByte s.pc.toNat, s.readByte (s.pc.toNat + 1)] = .error (.unknownOpcode w) →
    step s = .next { slotTaken s keys rnd with pc := plusTwo s.pc, out := some (.unknownOpcode w s.pc) }

/-- The engine's slot in WAITKEY(x) (R186; level-sensitive, checked at every slot: decision D9). -/
def Obligations.WaitingSlotSamplesKeys : Prop :=
  ∀ (s : State) (x : Reg) (keys : BitVec 16) (rnd : Byte), s.nextTurn = .engine keys rnd → s.mode = .waitKey x →
    (∀ k : Fin 16, keys.getLsbD k.val = true → (∀ j : Fin 16, j < k → keys.getLsbD j.val = false) →
      ∃ t, step s = .next t ∧ (t.reg x).toNat = k.val ∧ VKeptBut x s t ∧
        t = { slotTaken s keys rnd with v := t.v, mode := .run }) ∧
    (keys = 0 → step s = .next (slotTaken s keys rnd))

/-- HALT (R212): a slot changes nothing of the core, only `load` and `reset` leave the mode, and the fault line shows the code
(the codes are decision D5). -/
def Obligations.HaltedEngineDoesNothing : Prop := ∀ (s : State) (cause : Cause), s.mode = .halt cause →
  s.faultLine = some (if cause = .stackUnderflow then 1 else 2) ∧
  (∀ keys rnd, s.nextTurn = .engine keys rnd → step s = .next (slotTaken s keys rnd)) ∧
  (∀ t, step s = .next t → t.mode ≠ .halt cause → s.nextTurn = .reset ∨ ∃ rom, s.nextTurn = .load rom)

/-- A tick is a step in every MODE and changes the two timers alone (R217: decision D26). -/
def Obligations.TickStepsInEveryMode : Prop := ∀ s : State, s.nextTurn = .tick →
  ∃ t, step s = .next t ∧ t.dt.toNat = s.dt.toNat - 1 ∧ t.st.toNat = s.st.toNat - 1 ∧
    t = { turnTaken s with dt := t.dt, st := t.st } ∧ MemoryKept s t

/-- `load` of a ROM that fits (R243; decisions D13, D14): the core is re-initialised whatever it was, a wait or a halt
included. -/
def Obligations.LoadReinitialises : Prop := ∀ (s : State) (rom : List Byte), s.nextTurn = .load rom → rom.length ≤ 3584 →
  ∃ t, step s = .next t ∧ Reinitialised s t rom ∧ t.out = some .loadDone

/-- `load` of a ROM above 3584 bytes is rejected and no state element changes (R204, decision D23). -/
def Obligations.OversizedLoadRejected : Prop := ∀ (s : State) (rom : List Byte), s.nextTurn = .load rom → 3584 < rom.length →
  ∃ t, step s = .next t ∧ CoreKept s t ∧ t.out = some .romTooLarge

/-- `reset()` is a load of the empty ROM and cannot fail (R244, decision D15). -/
def Obligations.HostResetReinitialises : Prop := ∀ s : State, s.nextTurn = .reset →
  ∃ t, step s = .next t ∧ Reinitialised s t [] ∧ t.out = none

/-- The state at power-on (R44, R241), for every FONT and every STACK_DEPTH, and the defaults that `State.reset` takes (log 2, 6):
the zeros, the stack's entries among them, `pc` and MODE are decision D13 (log 11); the reserved range holds the free values of
log 1. -/
def Obligations.ResetState : Prop :=
  State.reset = State.powerOn defaultFont 16 ∧
  ∀ (font : Font) (depth : Nat) (s : State), s = State.powerOn font depth →
    (∀ k, s.reg k = 0) ∧ s.i = 0 ∧ s.pc = 0x200 ∧ s.sp = 0 ∧ s.stk = List.replicate depth 0 ∧
    s.dt = 0 ∧ s.st = 0 ∧ s.sound = false ∧ s.mode = .run ∧ (∀ y x, pixel s.fb y x = false) ∧
    s.font = font ∧ (∀ k : Fin 80, s.readByte k.val = font[k.val]) ∧
    (∀ a, 0x050 ≤ a → a < 0x200 → s.readByte a = Config.memLowInit a) ∧
    (∀ a, 0x200 ≤ a → a < 4096 → s.readByte a = 0)

/-- The invariant holds at power-on, for every FONT and every STACK_DEPTH and so for `State.reset` (its zeros and `pc` are decision
D13, log 11). -/
def Obligations.ResetMeetsInv : Prop := Inv State.reset ∧ ∀ (font : Font) (depth : Nat), Inv (State.powerOn font depth)

/-- Every step, whichever agent takes it, keeps the invariant: `pc`, I and the stacked addresses within 12 bits (R24, R30; the
masking of `pc` is decision D2), SP within STACK_DEPTH (R31, decision D3), memory canonical. -/
def Obligations.StepKeepsInv : Prop := ∀ s t : State, Inv s → step s = .next t → Inv t

/-- No state and no turn stops the machine: every step is a next state (R206: nothing else is an exception). That a stack fault
is a next state in mode HALT and that a slot given to a halted engine passes as a step that changes nothing, where R211 and R212 say
that the engine stops and has no step, is the model's choice (decision D4; log 8, unsafe). -/
def Obligations.EveryStepCompletes : Prop := ∀ s : State, ∃ t, step s = .next t

/-! ## Whole-machine rules -/

/-- A stack fault is entered by no other instruction than 00EE on an empty stack and 2NNN on a full one (R201, R202), and the fault
changes MODE alone (R211; the bound and the entry are decisions D3, D4, log 6, 8). -/
def Obligations.OnlyRetAndCallFault : Prop := ∀ (i : Instr) (s t : State) (cause : Cause),
  exec i s = .next t → s.mode = .run → t.mode = .halt cause →
  ((i = .ret ∧ cause = .stackUnderflow ∧ s.sp = 0) ∨
    ((∃ nnn, i = .call nnn) ∧ cause = .stackOverflow ∧ s.stackDepth ≤ s.sp)) ∧
  t = { s with mode := .halt cause }

/-- An instruction leaves every V register alone but its destination and, where it writes the flag, VF (R22, R27, R28). -/
def Obligations.RegistersWrittenOnlyAsDestinations : Prop := ∀ (i : Instr) (s t : State) (k : Reg),
  exec i s = .next t → writesReg i k = false → t.reg k = s.reg k

/-- I is written by ANNN, FX1E and FX29 only (R30), DT by FX15 only (R33), ST by FX18 only (R34), among instructions. That FX55 and
FX65 leave I is the model's choice (decision D7; log 13, unsafe). -/
def Obligations.SpecialRegistersWrittenOnlyBy : Prop := ∀ (i : Instr) (s t : State), exec i s = .next t →
  (t.i ≠ s.i → (∃ nnn, i = .ldI nnn) ∨ (∃ x, i = .addI x) ∨ (∃ x, i = .ldF x)) ∧
  (t.dt ≠ s.dt → ∃ x, i = .ldDtVx x) ∧ (t.st ≠ s.st → ∃ x, i = .ldStVx x)

/-- Memory is written by FX33 and FX55 only (R37, R63), the framebuffer by 00E0 and DXYN only (R38), among instructions; no
instruction touches the environment's lines, the schedule or the output record. -/
def Obligations.StoragesWrittenOnlyBy : Prop := ∀ (i : Instr) (s t : State), exec i s = .next t →
  ((∃ a, t.readByte a ≠ s.readByte a) → (∃ x, i = .ldB x) ∨ (∃ x, i = .storeRegs x)) ∧
  (t.fb ≠ s.fb → i = .cls ∨ ∃ x y n, i = .drw x y n) ∧
  t.keys = s.keys ∧ t.rnd = s.rnd ∧ t.turns = s.turns ∧ t.turnNo = s.turnNo ∧ t.out = s.out

/-- The stack is touched by 2NNN and 00EE only (R31); beyond the fetch advance `pc` is set only by the jumps, the call, the return
and the six skips (R25); MODE is changed only by FX0A and the two stack faults (R35; the faults' entry is decision D4,
log 8). -/
def Obligations.StackPcModeWrittenOnlyBy : Prop := ∀ (i : Instr) (s t : State), exec i s = .next t →
  (t.sp ≠ s.sp ∨ t.stk ≠ s.stk → i = .ret ∨ ∃ nnn, i = .call nnn) ∧
  (t.pc ≠ s.pc → i = .ret ∨ (∃ nnn, i = .jp nnn ∨ i = .call nnn ∨ i = .jpV0 nnn) ∨
    (∃ x nn, i = .seImm x nn ∨ i = .sneImm x nn) ∨ (∃ x y, i = .seReg x y ∨ i = .sneReg x y) ∨
    (∃ x, i = .skp x ∨ i = .sknp x)) ∧
  (t.mode ≠ s.mode → i = .ret ∨ (∃ nnn, i = .call nnn) ∨ ∃ x, i = .ldVxK x)

/-- A 2NNN followed by 00EE restores `pc` to the instruction after the 2NNN, and the depth of the stack (the source's example in
R120; S6). -/
def Obligations.CallThenReturn : Prop := ∀ (nnn : Word) (s t : State), s.sp < s.stackDepth → Is12Bit s.pc →
  exec (.call nnn) s = .next t →
  ∃ u, exec .ret t = .next u ∧ u.pc = s.pc ∧ u.sp = s.sp ∧ ∀ k, k < s.sp → u.stk[k]? = s.stk[k]?

/-- FX55 followed by FX65 with the same X and I restores the registers it saved, whatever was in them between (R165's own
derivation; decision D7). -/
def Obligations.StoreThenLoadRestores : Prop := ∀ (x : Reg) (s t : State) (between : Vector Byte 16),
  exec (.storeRegs x) s = .next t →
  ∃ u, exec (.loadRegs x) { t with v := between } = .next u ∧ u.i = s.i ∧ ∀ k : Reg, k ≤ x → u.reg k = s.reg k

/-- A store is seen by the very next fetch (R73, the spec's own derivation): after FX33 or FX55, each of the two bytes fetched next
is the stored one where the store wrote it and the old one elsewhere, whichever of them the store covers. That FX55 stores V[X] too
is decision D7 (log 13, unsafe), the wrap of the addresses decision D1 (log 7). -/
def Obligations.StoreSeenByNextFetch : Prop := ∀ (x : Reg) (s : State),
  (∃ t, exec (.ldB x) s = .next t ∧ t.pc = s.pc ∧ t.fetchWord = wordAfter s
    [BitVec.ofNat 8 ((s.reg x).toNat / 100), BitVec.ofNat 8 ((s.reg x).toNat / 10 % 10), BitVec.ofNat 8 ((s.reg x).toNat % 10)]) ∧
  (∃ t, exec (.storeRegs x) s = .next t ∧ t.pc = s.pc ∧
    t.fetchWord = wordAfter s ((List.range (x.val + 1)).map fun k => s.reg (Fin.ofNat 16 k)))

/-- The end of a run (R260, decision D21) is a fixpoint of the engine: a slot leaves the whole core unchanged. -/
def Obligations.SelfJumpIsFixpoint : Prop := ∀ (s : State) (keys : BitVec 16) (rnd : Byte),
  s.nextTurn = .engine keys rnd → Finished s = true → ∃ t, step s = .next t ∧ CoreKept s t ∧ Finished t = true

/-- No instruction reads ST (R34): two states that differ in ST alone step to states that differ in ST alone. -/
def Obligations.SoundTimerUnobservable : Prop := ∀ (s : State) (b : Byte),
  ∃ t c, step s = .next t ∧ step { s with st := b } = .next { t with st := c }

/-- Entries at or above SP are never read (R32, the spec's own derivation): states that agree but for them step to states that
agree but for them. -/
def Obligations.StaleStackEntriesUnobservable : Prop := ∀ (s : State) (stk : List Word),
  stk.length = s.stackDepth → (∀ k, k < s.sp → stk[k]? = s.stk[k]?) →
  ∃ t stk', step s = .next t ∧ step { s with stk := stk } = .next { t with stk := stk' } ∧
    stk'.length = t.stackDepth ∧ ∀ k, k < t.sp → stk'[k]? = t.stk[k]?

/-- No step changes a parameter of the machine (R5, R43): FONT and STACK_DEPTH, which State holds, are after every step what they
were before it, so a statement about every state is one about every FONT and every STACK_DEPTH (log 2, 6). -/
def Obligations.StepKeepsParameters : Prop := ∀ s t : State, step s = .next t →
  t.font = s.font ∧ t.stackDepth = s.stackDepth
end

