-- ==== Sys2Proof/Laws/Decode.lean ====
section
/-! SUPPORT. The opcode map as a function of words: which row a word selects, and the fields of an encoded word. -/

namespace Sys2Proof

/-- Some bit fixed in both rows differs, for every two rows of the map (R97). -/
theorem opTable_conflict : opTable.Pairwise fun p q => (p.pat ^^^ q.pat) &&& (p.mask &&& q.mask) ≠ 0 := by
  decide

/-- Two rows with a bit fixed differently share no word. -/
theorem not_selects_both {p q : OpRow} (h : (p.pat ^^^ q.pat) &&& (p.mask &&& q.mask) ≠ 0) (w : Word)
    (hp : p.selects w = true) : ¬ q.selects w = true := by
  intro hq
  simp only [OpRow.selects, beq_iff_eq] at hp hq
  apply h
  rw [← hp, ← hq]
  ext k
  simp only [BitVec.getElem_and, BitVec.getElem_xor]
  cases w[k] <;> cases p.mask[k] <;> cases q.mask[k] <;> simp

theorem find_of_pairwise {w : Word} {r : OpRow} : ∀ {l : List OpRow},
    l.Pairwise (fun p q => (p.pat ^^^ q.pat) &&& (p.mask &&& q.mask) ≠ 0) → r ∈ l → r.selects w = true →
    l.find? (·.selects w) = some r
  | p :: l, hl, hr, hw => by
    rw [List.pairwise_cons] at hl
    rcases List.mem_cons.mp hr with rfl | hm
    · simp [hw]
    · have hp : ¬ p.selects w = true := fun hp => not_selects_both (hl.1 r hm) w hp hw
      rw [List.find?_cons_of_neg (p := fun r : OpRow => r.selects w) hp]
      exact find_of_pairwise hl.2 hm hw

/-- A word that matches a row decodes by that row, whatever the order of the rows (R91). -/
theorem decodeWord_of_match {w : Word} (r : OpRow) (hr : r ∈ opTable) (hw : w &&& r.mask = r.pat) :
    decodeWord w = some (r.build w) := by
  rw [decodeWord, find_of_pairwise opTable_conflict hr (by simpa [OpRow.selects] using hw)]
  rfl

/-- A word that decodes matches the row it decodes by. -/
theorem match_of_decodeWord {w : Word} {i : Instr} (h : decodeWord w = some i) :
    ∃ r ∈ opTable, w &&& r.mask = r.pat ∧ r.build w = i := by
  rw [decodeWord, Option.map_eq_some_iff] at h
  obtain ⟨r, hr, rfl⟩ := h
  have hs := List.find?_some hr
  exact ⟨r, List.mem_of_find?_eq_some hr, by simpa [OpRow.selects] using hs, rfl⟩

/-- A word is unrecognised exactly when no row matches it (R99). -/
theorem decodeWord_eq_none {w : Word} : decodeWord w = none ↔ ∀ r ∈ opTable, w &&& r.mask ≠ r.pat := by
  simp [decodeWord, List.find?_eq_none, OpRow.selects]

/-! ## The fields of an encoded word -/

/-- Bit by bit, format XNN is op, x, nn from the top (R93). -/
theorem encodeXNN_bit (op : BitVec 4) (x : Reg) (nn : Byte) (k : Nat) : (encodeXNN op x nn).getLsbD k =
    if k < 8 then nn.getLsbD k else if k < 12 then (regNibble x).getLsbD (k - 8) else op.getLsbD (k - 12) := by
  have h : (op ++ regNibble x ++ nn).getLsbD k =
      if k < 8 then nn.getLsbD k else if k < 12 then (regNibble x).getLsbD (k - 8) else op.getLsbD (k - 12) := by
    rw [BitVec.getLsbD_append, BitVec.getLsbD_append]
    by_cases h1 : k < 8
    · simp [h1]
    · by_cases h2 : k < 12
      · have : k - 8 < 4 := by omega
        simp [h1, h2, this]
      · have h3 : ¬ k - 8 < 4 := by omega
        have h4 : k - 8 - 4 = k - 12 := by omega
        simp [h1, h2, h3, h4]
  exact h

/-- Bit by bit, formats XY and XYN are op, x, y, n from the top (R93). -/
theorem encodeXYN_bit (op : BitVec 4) (x y : Reg) (n : BitVec 4) (k : Nat) : (encodeXYN op x y n).getLsbD k =
    if k < 4 then n.getLsbD k else if k < 8 then (regNibble y).getLsbD (k - 4)
    else if k < 12 then (regNibble x).getLsbD (k - 8) else op.getLsbD (k - 12) := by
  have h : (op ++ regNibble x ++ regNibble y ++ n).getLsbD k =
      if k < 4 then n.getLsbD k else if k < 8 then (regNibble y).getLsbD (k - 4)
      else if k < 12 then (regNibble x).getLsbD (k - 8) else op.getLsbD (k - 12) := by
    rw [BitVec.getLsbD_append, BitVec.getLsbD_append, BitVec.getLsbD_append]
    by_cases h1 : k < 4
    · simp [h1]
    · by_cases h2 : k < 8
      · have : k - 4 < 4 := by omega
        simp [h1, h2, this]
      · have h3 : ¬ k - 4 < 4 := by omega
        have h4 : k - 4 - 4 = k - 8 := by omega
        by_cases h5 : k < 12
        · have : k - 8 < 4 := by omega
          simp [h1, h2, h3, h4, h5, this]
        · have h6 : ¬ k - 8 < 4 := by omega
          have h7 : k - 8 - 4 = k - 12 := by omega
          simp [h1, h2, h3, h4, h5, h6, h7]
  exact h

/-- Bit by bit, format NNN is op, nnn from the top (R93). -/
theorem encodeNNN_bit (op : BitVec 4) (nnn : Word) (k : Nat) : (encodeNNN op nnn).getLsbD k =
    if k < 12 then nnn.getLsbD k else op.getLsbD (k - 12) := by
  have h : (op ++ nnn.setWidth 12).getLsbD k = if k < 12 then nnn.getLsbD k else op.getLsbD (k - 12) := by
    rw [BitVec.getLsbD_append]
    by_cases h1 : k < 12 <;> simp [h1]
  exact h

/-- Format XB has the bits of format XNN (R93). -/
theorem encodeXB_eq (op : BitVec 4) (x : Reg) (b : Byte) : encodeXB op x b = encodeXNN op x b := rfl

theorem fieldX_of_bits {w : Word} {x : Reg} (h : ∀ k, k < 4 → w.getLsbD (8 + k) = (regNibble x).getLsbD k) :
    fieldX w = x := by
  have : w.extractLsb' 8 4 = regNibble x := by
    apply BitVec.eq_of_getLsbD_eq
    intro k hk
    simp [hk, h k hk]
  rw [fieldX, this]
  rfl

theorem fieldY_of_bits {w : Word} {y : Reg} (h : ∀ k, k < 4 → w.getLsbD (4 + k) = (regNibble y).getLsbD k) :
    fieldY w = y := by
  have : w.extractLsb' 4 4 = regNibble y := by
    apply BitVec.eq_of_getLsbD_eq
    intro k hk
    simp [hk, h k hk]
  rw [fieldY, this]
  rfl

@[simp] theorem fieldX_encodeXNN (op : BitVec 4) (x : Reg) (nn : Byte) : fieldX (encodeXNN op x nn) = x :=
  fieldX_of_bits fun k hk => by
    have h1 : ¬ 8 + k < 8 := by omega
    have h2 : 8 + k < 12 := by omega
    simp [encodeXNN_bit, h1, h2]

@[simp] theorem fieldX_encodeXYN (op : BitVec 4) (x y : Reg) (n : BitVec 4) : fieldX (encodeXYN op x y n) = x :=
  fieldX_of_bits fun k hk => by
    have h1 : ¬ 8 + k < 4 := by omega
    have h2 : ¬ 8 + k < 8 := by omega
    have h3 : 8 + k < 12 := by omega
    simp [encodeXYN_bit, h1, h2, h3]

@[simp] theorem fieldY_encodeXYN (op : BitVec 4) (x y : Reg) (n : BitVec 4) : fieldY (encodeXYN op x y n) = y :=
  fieldY_of_bits fun k hk => by
    have h1 : ¬ 4 + k < 4 := by omega
    have h2 : 4 + k < 8 := by omega
    simp [encodeXYN_bit, h1, h2]

@[simp] theorem fieldNN_encodeXNN (op : BitVec 4) (x : Reg) (nn : Byte) : fieldNN (encodeXNN op x nn) = nn := by
  apply BitVec.eq_of_getLsbD_eq
  intro k hk
  simp [fieldNN, hk, encodeXNN_bit]

@[simp] theorem fieldN_encodeXYN (op : BitVec 4) (x y : Reg) (n : BitVec 4) : fieldN (encodeXYN op x y n) = n.toNat := by
  have : (encodeXYN op x y n).extractLsb' 0 4 = n := by
    apply BitVec.eq_of_getLsbD_eq
    intro k hk
    simp [hk, encodeXYN_bit]
  rw [fieldN, this]

/-- The address field is the low 12 bits of the operand. -/
theorem fieldNNN_encodeNNN (op : BitVec 4) (nnn : Word) : fieldNNN (encodeNNN op nnn) = fieldNNN nnn := by
  apply BitVec.eq_of_getLsbD_eq
  intro k hk
  rw [fieldNNN, fieldNNN, BitVec.getLsbD_and, BitVec.getLsbD_and, encodeNNN_bit]
  by_cases h : k < 12
  · simp [h]
  · have : (0x0FFF#16).getLsbD k = false := by
      interval_cases k <;> simp_all
    simp [this]

theorem fieldNNN_toNat (w : Word) : (fieldNNN w).toNat = w.toNat % 4096 := by
  simp [fieldNNN, Nat.and_two_pow_sub_one_eq_mod _ 12]

theorem fieldNNN_of_isAddr {nnn : Word} (h : Word.isAddr nnn = true) : fieldNNN nnn = nnn :=
  BitVec.eq_of_toNat_eq (by rw [fieldNNN_toNat, Nat.mod_eq_of_lt (by simpa [Word.isAddr] using h)])

/-! ## The masked bits of an encoded word -/

/-- Two words agree under a mask when they agree at each bit the mask has. -/
theorem and_eq_of_bits {w mask pat : Word}
    (h : ∀ k, k < 16 → (w.getLsbD k && mask.getLsbD k) = pat.getLsbD k) : w &&& mask = pat :=
  BitVec.eq_of_getLsbD_eq fun k hk => by rw [BitVec.getLsbD_and, h k hk]

theorem encodeNNN_mask (op : BitVec 4) (nnn : Word) : encodeNNN op nnn &&& 0xF000#16 = encodeNNN op 0 :=
  and_eq_of_bits fun k hk => by
    rw [encodeNNN_bit, encodeNNN_bit]
    interval_cases k <;> simp

theorem encodeXNN_mask (op : BitVec 4) (x : Reg) (nn : Byte) : encodeXNN op x nn &&& 0xF000#16 = encodeNNN op 0 :=
  and_eq_of_bits fun k hk => by
    rw [encodeXNN_bit, encodeNNN_bit]
    interval_cases k <;> simp

theorem encodeXYN_mask (op : BitVec 4) (x y : Reg) (n : BitVec 4) : encodeXYN op x y n &&& 0xF000#16 = encodeNNN op 0 :=
  and_eq_of_bits fun k hk => by
    rw [encodeXYN_bit, encodeNNN_bit]
    interval_cases k <;> simp

theorem encodeXY_mask (op : BitVec 4) (x y : Reg) (n : BitVec 4) : encodeXYN op x y n &&& 0xF00F#16 = encodeXYN op 0 0 n :=
  and_eq_of_bits fun k hk => by
    rw [encodeXYN_bit, encodeXYN_bit]
    interval_cases k <;> simp [regNibble]

theorem encodeXB_mask (op : BitVec 4) (x : Reg) (b : Byte) : encodeXB op x b &&& 0xF0FF#16 = encodeXNN op 0 b :=
  and_eq_of_bits fun k hk => by
    rw [encodeXB_eq, encodeXNN_bit, encodeXNN_bit]
    interval_cases k <;> simp [regNibble]

end Sys2Proof
end

