-- ==== Sys2Proof/Laws/State.lean ====
section
/-! SUPPORT. One lemma per field per update of State, each true by rfl, so that no proof unfolds a record update. -/

namespace Sys2Proof.Machine

variable (s : State)

/-! ### setReg -/

@[simp] theorem State.setReg_v (x : Reg) (b : Byte) : (s.setReg x b).v = s.v.set x.val b := rfl
@[simp] theorem State.setReg_i (x : Reg) (b : Byte) : (s.setReg x b).i = s.i := rfl
@[simp] theorem State.setReg_pc (x : Reg) (b : Byte) : (s.setReg x b).pc = s.pc := rfl
@[simp] theorem State.setReg_stk (x : Reg) (b : Byte) : (s.setReg x b).stk = s.stk := rfl
@[simp] theorem State.setReg_sp (x : Reg) (b : Byte) : (s.setReg x b).sp = s.sp := rfl
@[simp] theorem State.setReg_stackDepth (x : Reg) (b : Byte) : (s.setReg x b).stackDepth = s.stackDepth := rfl
@[simp] theorem State.setReg_dt (x : Reg) (b : Byte) : (s.setReg x b).dt = s.dt := rfl
@[simp] theorem State.setReg_st (x : Reg) (b : Byte) : (s.setReg x b).st = s.st := rfl
@[simp] theorem State.setReg_mode (x : Reg) (b : Byte) : (s.setReg x b).mode = s.mode := rfl
@[simp] theorem State.setReg_mem (x : Reg) (b : Byte) : (s.setReg x b).mem = s.mem := rfl
@[simp] theorem State.setReg_fb (x : Reg) (b : Byte) : (s.setReg x b).fb = s.fb := rfl
@[simp] theorem State.setReg_font (x : Reg) (b : Byte) : (s.setReg x b).font = s.font := rfl
@[simp] theorem State.setReg_keys (x : Reg) (b : Byte) : (s.setReg x b).keys = s.keys := rfl
@[simp] theorem State.setReg_rnd (x : Reg) (b : Byte) : (s.setReg x b).rnd = s.rnd := rfl
@[simp] theorem State.setReg_turns (x : Reg) (b : Byte) : (s.setReg x b).turns = s.turns := rfl
@[simp] theorem State.setReg_turnNo (x : Reg) (b : Byte) : (s.setReg x b).turnNo = s.turnNo := rfl
@[simp] theorem State.setReg_out (x : Reg) (b : Byte) : (s.setReg x b).out = s.out := rfl

/-! ### setPc -/

@[simp] theorem State.setPc_v (a : Word) : (s.setPc a).v = s.v := rfl
@[simp] theorem State.setPc_i (a : Word) : (s.setPc a).i = s.i := rfl
@[simp] theorem State.setPc_pc (a : Word) : (s.setPc a).pc = low12 a := rfl
@[simp] theorem State.setPc_stk (a : Word) : (s.setPc a).stk = s.stk := rfl
@[simp] theorem State.setPc_sp (a : Word) : (s.setPc a).sp = s.sp := rfl
@[simp] theorem State.setPc_stackDepth (a : Word) : (s.setPc a).stackDepth = s.stackDepth := rfl
@[simp] theorem State.setPc_dt (a : Word) : (s.setPc a).dt = s.dt := rfl
@[simp] theorem State.setPc_st (a : Word) : (s.setPc a).st = s.st := rfl
@[simp] theorem State.setPc_mode (a : Word) : (s.setPc a).mode = s.mode := rfl
@[simp] theorem State.setPc_mem (a : Word) : (s.setPc a).mem = s.mem := rfl
@[simp] theorem State.setPc_fb (a : Word) : (s.setPc a).fb = s.fb := rfl
@[simp] theorem State.setPc_font (a : Word) : (s.setPc a).font = s.font := rfl
@[simp] theorem State.setPc_keys (a : Word) : (s.setPc a).keys = s.keys := rfl
@[simp] theorem State.setPc_rnd (a : Word) : (s.setPc a).rnd = s.rnd := rfl
@[simp] theorem State.setPc_turns (a : Word) : (s.setPc a).turns = s.turns := rfl
@[simp] theorem State.setPc_turnNo (a : Word) : (s.setPc a).turnNo = s.turnNo := rfl
@[simp] theorem State.setPc_out (a : Word) : (s.setPc a).out = s.out := rfl

/-! ### setI -/

@[simp] theorem State.setI_v (a : Word) : (s.setI a).v = s.v := rfl
@[simp] theorem State.setI_i (a : Word) : (s.setI a).i = low12 a := rfl
@[simp] theorem State.setI_pc (a : Word) : (s.setI a).pc = s.pc := rfl
@[simp] theorem State.setI_stk (a : Word) : (s.setI a).stk = s.stk := rfl
@[simp] theorem State.setI_sp (a : Word) : (s.setI a).sp = s.sp := rfl
@[simp] theorem State.setI_stackDepth (a : Word) : (s.setI a).stackDepth = s.stackDepth := rfl
@[simp] theorem State.setI_dt (a : Word) : (s.setI a).dt = s.dt := rfl
@[simp] theorem State.setI_st (a : Word) : (s.setI a).st = s.st := rfl
@[simp] theorem State.setI_mode (a : Word) : (s.setI a).mode = s.mode := rfl
@[simp] theorem State.setI_mem (a : Word) : (s.setI a).mem = s.mem := rfl
@[simp] theorem State.setI_fb (a : Word) : (s.setI a).fb = s.fb := rfl
@[simp] theorem State.setI_font (a : Word) : (s.setI a).font = s.font := rfl
@[simp] theorem State.setI_keys (a : Word) : (s.setI a).keys = s.keys := rfl
@[simp] theorem State.setI_rnd (a : Word) : (s.setI a).rnd = s.rnd := rfl
@[simp] theorem State.setI_turns (a : Word) : (s.setI a).turns = s.turns := rfl
@[simp] theorem State.setI_turnNo (a : Word) : (s.setI a).turnNo = s.turnNo := rfl
@[simp] theorem State.setI_out (a : Word) : (s.setI a).out = s.out := rfl

/-! ### setDt -/

@[simp] theorem State.setDt_v (b : Byte) : (s.setDt b).v = s.v := rfl
@[simp] theorem State.setDt_i (b : Byte) : (s.setDt b).i = s.i := rfl
@[simp] theorem State.setDt_pc (b : Byte) : (s.setDt b).pc = s.pc := rfl
@[simp] theorem State.setDt_stk (b : Byte) : (s.setDt b).stk = s.stk := rfl
@[simp] theorem State.setDt_sp (b : Byte) : (s.setDt b).sp = s.sp := rfl
@[simp] theorem State.setDt_stackDepth (b : Byte) : (s.setDt b).stackDepth = s.stackDepth := rfl
@[simp] theorem State.setDt_dt (b : Byte) : (s.setDt b).dt = b := rfl
@[simp] theorem State.setDt_st (b : Byte) : (s.setDt b).st = s.st := rfl
@[simp] theorem State.setDt_mode (b : Byte) : (s.setDt b).mode = s.mode := rfl
@[simp] theorem State.setDt_mem (b : Byte) : (s.setDt b).mem = s.mem := rfl
@[simp] theorem State.setDt_fb (b : Byte) : (s.setDt b).fb = s.fb := rfl
@[simp] theorem State.setDt_font (b : Byte) : (s.setDt b).font = s.font := rfl
@[simp] theorem State.setDt_keys (b : Byte) : (s.setDt b).keys = s.keys := rfl
@[simp] theorem State.setDt_rnd (b : Byte) : (s.setDt b).rnd = s.rnd := rfl
@[simp] theorem State.setDt_turns (b : Byte) : (s.setDt b).turns = s.turns := rfl
@[simp] theorem State.setDt_turnNo (b : Byte) : (s.setDt b).turnNo = s.turnNo := rfl
@[simp] theorem State.setDt_out (b : Byte) : (s.setDt b).out = s.out := rfl

/-! ### setSt -/

@[simp] theorem State.setSt_v (b : Byte) : (s.setSt b).v = s.v := rfl
@[simp] theorem State.setSt_i (b : Byte) : (s.setSt b).i = s.i := rfl
@[simp] theorem State.setSt_pc (b : Byte) : (s.setSt b).pc = s.pc := rfl
@[simp] theorem State.setSt_stk (b : Byte) : (s.setSt b).stk = s.stk := rfl
@[simp] theorem State.setSt_sp (b : Byte) : (s.setSt b).sp = s.sp := rfl
@[simp] theorem State.setSt_stackDepth (b : Byte) : (s.setSt b).stackDepth = s.stackDepth := rfl
@[simp] theorem State.setSt_dt (b : Byte) : (s.setSt b).dt = s.dt := rfl
@[simp] theorem State.setSt_st (b : Byte) : (s.setSt b).st = b := rfl
@[simp] theorem State.setSt_mode (b : Byte) : (s.setSt b).mode = s.mode := rfl
@[simp] theorem State.setSt_mem (b : Byte) : (s.setSt b).mem = s.mem := rfl
@[simp] theorem State.setSt_fb (b : Byte) : (s.setSt b).fb = s.fb := rfl
@[simp] theorem State.setSt_font (b : Byte) : (s.setSt b).font = s.font := rfl
@[simp] theorem State.setSt_keys (b : Byte) : (s.setSt b).keys = s.keys := rfl
@[simp] theorem State.setSt_rnd (b : Byte) : (s.setSt b).rnd = s.rnd := rfl
@[simp] theorem State.setSt_turns (b : Byte) : (s.setSt b).turns = s.turns := rfl
@[simp] theorem State.setSt_turnNo (b : Byte) : (s.setSt b).turnNo = s.turnNo := rfl
@[simp] theorem State.setSt_out (b : Byte) : (s.setSt b).out = s.out := rfl

/-! ### setMode -/

@[simp] theorem State.setMode_v (m : Mode) : (s.setMode m).v = s.v := rfl
@[simp] theorem State.setMode_i (m : Mode) : (s.setMode m).i = s.i := rfl
@[simp] theorem State.setMode_pc (m : Mode) : (s.setMode m).pc = s.pc := rfl
@[simp] theorem State.setMode_stk (m : Mode) : (s.setMode m).stk = s.stk := rfl
@[simp] theorem State.setMode_sp (m : Mode) : (s.setMode m).sp = s.sp := rfl
@[simp] theorem State.setMode_stackDepth (m : Mode) : (s.setMode m).stackDepth = s.stackDepth := rfl
@[simp] theorem State.setMode_dt (m : Mode) : (s.setMode m).dt = s.dt := rfl
@[simp] theorem State.setMode_st (m : Mode) : (s.setMode m).st = s.st := rfl
@[simp] theorem State.setMode_mode (m : Mode) : (s.setMode m).mode = m := rfl
@[simp] theorem State.setMode_mem (m : Mode) : (s.setMode m).mem = s.mem := rfl
@[simp] theorem State.setMode_fb (m : Mode) : (s.setMode m).fb = s.fb := rfl
@[simp] theorem State.setMode_font (m : Mode) : (s.setMode m).font = s.font := rfl
@[simp] theorem State.setMode_keys (m : Mode) : (s.setMode m).keys = s.keys := rfl
@[simp] theorem State.setMode_rnd (m : Mode) : (s.setMode m).rnd = s.rnd := rfl
@[simp] theorem State.setMode_turns (m : Mode) : (s.setMode m).turns = s.turns := rfl
@[simp] theorem State.setMode_turnNo (m : Mode) : (s.setMode m).turnNo = s.turnNo := rfl
@[simp] theorem State.setMode_out (m : Mode) : (s.setMode m).out = s.out := rfl

/-! ### raise -/

@[simp] theorem State.raise_v (c : Cause) : (s.raise c).v = s.v := rfl
@[simp] theorem State.raise_i (c : Cause) : (s.raise c).i = s.i := rfl
@[simp] theorem State.raise_pc (c : Cause) : (s.raise c).pc = s.pc := rfl
@[simp] theorem State.raise_stk (c : Cause) : (s.raise c).stk = s.stk := rfl
@[simp] theorem State.raise_sp (c : Cause) : (s.raise c).sp = s.sp := rfl
@[simp] theorem State.raise_stackDepth (c : Cause) : (s.raise c).stackDepth = s.stackDepth := rfl
@[simp] theorem State.raise_dt (c : Cause) : (s.raise c).dt = s.dt := rfl
@[simp] theorem State.raise_st (c : Cause) : (s.raise c).st = s.st := rfl
@[simp] theorem State.raise_mode (c : Cause) : (s.raise c).mode = .halt c := rfl
@[simp] theorem State.raise_mem (c : Cause) : (s.raise c).mem = s.mem := rfl
@[simp] theorem State.raise_fb (c : Cause) : (s.raise c).fb = s.fb := rfl
@[simp] theorem State.raise_font (c : Cause) : (s.raise c).font = s.font := rfl
@[simp] theorem State.raise_keys (c : Cause) : (s.raise c).keys = s.keys := rfl
@[simp] theorem State.raise_rnd (c : Cause) : (s.raise c).rnd = s.rnd := rfl
@[simp] theorem State.raise_turns (c : Cause) : (s.raise c).turns = s.turns := rfl
@[simp] theorem State.raise_turnNo (c : Cause) : (s.raise c).turnNo = s.turnNo := rfl
@[simp] theorem State.raise_out (c : Cause) : (s.raise c).out = s.out := rfl

/-! ### setFb -/

@[simp] theorem State.setFb_v (f : Framebuffer) : (s.setFb f).v = s.v := rfl
@[simp] theorem State.setFb_i (f : Framebuffer) : (s.setFb f).i = s.i := rfl
@[simp] theorem State.setFb_pc (f : Framebuffer) : (s.setFb f).pc = s.pc := rfl
@[simp] theorem State.setFb_stk (f : Framebuffer) : (s.setFb f).stk = s.stk := rfl
@[simp] theorem State.setFb_sp (f : Framebuffer) : (s.setFb f).sp = s.sp := rfl
@[simp] theorem State.setFb_stackDepth (f : Framebuffer) : (s.setFb f).stackDepth = s.stackDepth := rfl
@[simp] theorem State.setFb_dt (f : Framebuffer) : (s.setFb f).dt = s.dt := rfl
@[simp] theorem State.setFb_st (f : Framebuffer) : (s.setFb f).st = s.st := rfl
@[simp] theorem State.setFb_mode (f : Framebuffer) : (s.setFb f).mode = s.mode := rfl
@[simp] theorem State.setFb_mem (f : Framebuffer) : (s.setFb f).mem = s.mem := rfl
@[simp] theorem State.setFb_fb (f : Framebuffer) : (s.setFb f).fb = f := rfl
@[simp] theorem State.setFb_font (f : Framebuffer) : (s.setFb f).font = s.font := rfl
@[simp] theorem State.setFb_keys (f : Framebuffer) : (s.setFb f).keys = s.keys := rfl
@[simp] theorem State.setFb_rnd (f : Framebuffer) : (s.setFb f).rnd = s.rnd := rfl
@[simp] theorem State.setFb_turns (f : Framebuffer) : (s.setFb f).turns = s.turns := rfl
@[simp] theorem State.setFb_turnNo (f : Framebuffer) : (s.setFb f).turnNo = s.turnNo := rfl
@[simp] theorem State.setFb_out (f : Framebuffer) : (s.setFb f).out = s.out := rfl

/-! ### writeByte -/

@[simp] theorem State.writeByte_v (a : Nat) (b : Byte) : (s.writeByte a b).v = s.v := rfl
@[simp] theorem State.writeByte_i (a : Nat) (b : Byte) : (s.writeByte a b).i = s.i := rfl
@[simp] theorem State.writeByte_pc (a : Nat) (b : Byte) : (s.writeByte a b).pc = s.pc := rfl
@[simp] theorem State.writeByte_stk (a : Nat) (b : Byte) : (s.writeByte a b).stk = s.stk := rfl
@[simp] theorem State.writeByte_sp (a : Nat) (b : Byte) : (s.writeByte a b).sp = s.sp := rfl
@[simp] theorem State.writeByte_stackDepth (a : Nat) (b : Byte) : (s.writeByte a b).stackDepth = s.stackDepth := rfl
@[simp] theorem State.writeByte_dt (a : Nat) (b : Byte) : (s.writeByte a b).dt = s.dt := rfl
@[simp] theorem State.writeByte_st (a : Nat) (b : Byte) : (s.writeByte a b).st = s.st := rfl
@[simp] theorem State.writeByte_mode (a : Nat) (b : Byte) : (s.writeByte a b).mode = s.mode := rfl
@[simp] theorem State.writeByte_mem (a : Nat) (b : Byte) : (s.writeByte a b).mem = s.mem.write s.font a b := rfl
@[simp] theorem State.writeByte_fb (a : Nat) (b : Byte) : (s.writeByte a b).fb = s.fb := rfl
@[simp] theorem State.writeByte_font (a : Nat) (b : Byte) : (s.writeByte a b).font = s.font := rfl
@[simp] theorem State.writeByte_keys (a : Nat) (b : Byte) : (s.writeByte a b).keys = s.keys := rfl
@[simp] theorem State.writeByte_rnd (a : Nat) (b : Byte) : (s.writeByte a b).rnd = s.rnd := rfl
@[simp] theorem State.writeByte_turns (a : Nat) (b : Byte) : (s.writeByte a b).turns = s.turns := rfl
@[simp] theorem State.writeByte_turnNo (a : Nat) (b : Byte) : (s.writeByte a b).turnNo = s.turnNo := rfl
@[simp] theorem State.writeByte_out (a : Nat) (b : Byte) : (s.writeByte a b).out = s.out := rfl

/-! ### emit -/

@[simp] theorem State.emit_v (e : Event) : (s.emit e).v = s.v := rfl
@[simp] theorem State.emit_i (e : Event) : (s.emit e).i = s.i := rfl
@[simp] theorem State.emit_pc (e : Event) : (s.emit e).pc = s.pc := rfl
@[simp] theorem State.emit_stk (e : Event) : (s.emit e).stk = s.stk := rfl
@[simp] theorem State.emit_sp (e : Event) : (s.emit e).sp = s.sp := rfl
@[simp] theorem State.emit_stackDepth (e : Event) : (s.emit e).stackDepth = s.stackDepth := rfl
@[simp] theorem State.emit_dt (e : Event) : (s.emit e).dt = s.dt := rfl
@[simp] theorem State.emit_st (e : Event) : (s.emit e).st = s.st := rfl
@[simp] theorem State.emit_mode (e : Event) : (s.emit e).mode = s.mode := rfl
@[simp] theorem State.emit_mem (e : Event) : (s.emit e).mem = s.mem := rfl
@[simp] theorem State.emit_fb (e : Event) : (s.emit e).fb = s.fb := rfl
@[simp] theorem State.emit_font (e : Event) : (s.emit e).font = s.font := rfl
@[simp] theorem State.emit_keys (e : Event) : (s.emit e).keys = s.keys := rfl
@[simp] theorem State.emit_rnd (e : Event) : (s.emit e).rnd = s.rnd := rfl
@[simp] theorem State.emit_turns (e : Event) : (s.emit e).turns = s.turns := rfl
@[simp] theorem State.emit_turnNo (e : Event) : (s.emit e).turnNo = s.turnNo := rfl
@[simp] theorem State.emit_out (e : Event) : (s.emit e).out = some e := rfl

/-! ### present -/

@[simp] theorem State.present_v (k : BitVec 16) (r : Byte) : (s.present k r).v = s.v := rfl
@[simp] theorem State.present_i (k : BitVec 16) (r : Byte) : (s.present k r).i = s.i := rfl
@[simp] theorem State.present_pc (k : BitVec 16) (r : Byte) : (s.present k r).pc = s.pc := rfl
@[simp] theorem State.present_stk (k : BitVec 16) (r : Byte) : (s.present k r).stk = s.stk := rfl
@[simp] theorem State.present_sp (k : BitVec 16) (r : Byte) : (s.present k r).sp = s.sp := rfl
@[simp] theorem State.present_stackDepth (k : BitVec 16) (r : Byte) : (s.present k r).stackDepth = s.stackDepth := rfl
@[simp] theorem State.present_dt (k : BitVec 16) (r : Byte) : (s.present k r).dt = s.dt := rfl
@[simp] theorem State.present_st (k : BitVec 16) (r : Byte) : (s.present k r).st = s.st := rfl
@[simp] theorem State.present_mode (k : BitVec 16) (r : Byte) : (s.present k r).mode = s.mode := rfl
@[simp] theorem State.present_mem (k : BitVec 16) (r : Byte) : (s.present k r).mem = s.mem := rfl
@[simp] theorem State.present_fb (k : BitVec 16) (r : Byte) : (s.present k r).fb = s.fb := rfl
@[simp] theorem State.present_font (k : BitVec 16) (r : Byte) : (s.present k r).font = s.font := rfl
@[simp] theorem State.present_keys (k : BitVec 16) (r : Byte) : (s.present k r).keys = k := rfl
@[simp] theorem State.present_rnd (k : BitVec 16) (r : Byte) : (s.present k r).rnd = r := rfl
@[simp] theorem State.present_turns (k : BitVec 16) (r : Byte) : (s.present k r).turns = s.turns := rfl
@[simp] theorem State.present_turnNo (k : BitVec 16) (r : Byte) : (s.present k r).turnNo = s.turnNo := rfl
@[simp] theorem State.present_out (k : BitVec 16) (r : Byte) : (s.present k r).out = s.out := rfl

/-! ### setFlagged -/

@[simp] theorem State.setFlagged_v (x : Reg) (f b : Byte) : (s.setFlagged x f b).v = (s.v.set vf.val f).set x.val b := rfl
@[simp] theorem State.setFlagged_i (x : Reg) (f b : Byte) : (s.setFlagged x f b).i = s.i := rfl
@[simp] theorem State.setFlagged_pc (x : Reg) (f b : Byte) : (s.setFlagged x f b).pc = s.pc := rfl
@[simp] theorem State.setFlagged_stk (x : Reg) (f b : Byte) : (s.setFlagged x f b).stk = s.stk := rfl
@[simp] theorem State.setFlagged_sp (x : Reg) (f b : Byte) : (s.setFlagged x f b).sp = s.sp := rfl
@[simp] theorem State.setFlagged_stackDepth (x : Reg) (f b : Byte) : (s.setFlagged x f b).stackDepth = s.stackDepth := rfl
@[simp] theorem State.setFlagged_dt (x : Reg) (f b : Byte) : (s.setFlagged x f b).dt = s.dt := rfl
@[simp] theorem State.setFlagged_st (x : Reg) (f b : Byte) : (s.setFlagged x f b).st = s.st := rfl
@[simp] theorem State.setFlagged_mode (x : Reg) (f b : Byte) : (s.setFlagged x f b).mode = s.mode := rfl
@[simp] theorem State.setFlagged_mem (x : Reg) (f b : Byte) : (s.setFlagged x f b).mem = s.mem := rfl
@[simp] theorem State.setFlagged_fb (x : Reg) (f b : Byte) : (s.setFlagged x f b).fb = s.fb := rfl
@[simp] theorem State.setFlagged_font (x : Reg) (f b : Byte) : (s.setFlagged x f b).font = s.font := rfl
@[simp] theorem State.setFlagged_keys (x : Reg) (f b : Byte) : (s.setFlagged x f b).keys = s.keys := rfl
@[simp] theorem State.setFlagged_rnd (x : Reg) (f b : Byte) : (s.setFlagged x f b).rnd = s.rnd := rfl
@[simp] theorem State.setFlagged_turns (x : Reg) (f b : Byte) : (s.setFlagged x f b).turns = s.turns := rfl
@[simp] theorem State.setFlagged_turnNo (x : Reg) (f b : Byte) : (s.setFlagged x f b).turnNo = s.turnNo := rfl
@[simp] theorem State.setFlagged_out (x : Reg) (f b : Byte) : (s.setFlagged x f b).out = s.out := rfl

/-! ### advance -/

@[simp] theorem State.advance_v : s.advance.v = s.v := rfl
@[simp] theorem State.advance_i : s.advance.i = s.i := rfl
@[simp] theorem State.advance_pc : s.advance.pc = low12 (s.pc + 2) := rfl
@[simp] theorem State.advance_stk : s.advance.stk = s.stk := rfl
@[simp] theorem State.advance_sp : s.advance.sp = s.sp := rfl
@[simp] theorem State.advance_stackDepth : s.advance.stackDepth = s.stackDepth := rfl
@[simp] theorem State.advance_dt : s.advance.dt = s.dt := rfl
@[simp] theorem State.advance_st : s.advance.st = s.st := rfl
@[simp] theorem State.advance_mode : s.advance.mode = s.mode := rfl
@[simp] theorem State.advance_mem : s.advance.mem = s.mem := rfl
@[simp] theorem State.advance_fb : s.advance.fb = s.fb := rfl
@[simp] theorem State.advance_font : s.advance.font = s.font := rfl
@[simp] theorem State.advance_keys : s.advance.keys = s.keys := rfl
@[simp] theorem State.advance_rnd : s.advance.rnd = s.rnd := rfl
@[simp] theorem State.advance_turns : s.advance.turns = s.turns := rfl
@[simp] theorem State.advance_turnNo : s.advance.turnNo = s.turnNo := rfl
@[simp] theorem State.advance_out : s.advance.out = s.out := rfl

/-! ### timerTick -/

@[simp] theorem State.timerTick_v : s.timerTick.v = s.v := rfl
@[simp] theorem State.timerTick_i : s.timerTick.i = s.i := rfl
@[simp] theorem State.timerTick_pc : s.timerTick.pc = s.pc := rfl
@[simp] theorem State.timerTick_stk : s.timerTick.stk = s.stk := rfl
@[simp] theorem State.timerTick_sp : s.timerTick.sp = s.sp := rfl
@[simp] theorem State.timerTick_stackDepth : s.timerTick.stackDepth = s.stackDepth := rfl
@[simp] theorem State.timerTick_dt : s.timerTick.dt = countDown s.dt := rfl
@[simp] theorem State.timerTick_st : s.timerTick.st = countDown s.st := rfl
@[simp] theorem State.timerTick_mode : s.timerTick.mode = s.mode := rfl
@[simp] theorem State.timerTick_mem : s.timerTick.mem = s.mem := rfl
@[simp] theorem State.timerTick_fb : s.timerTick.fb = s.fb := rfl
@[simp] theorem State.timerTick_font : s.timerTick.font = s.font := rfl
@[simp] theorem State.timerTick_keys : s.timerTick.keys = s.keys := rfl
@[simp] theorem State.timerTick_rnd : s.timerTick.rnd = s.rnd := rfl
@[simp] theorem State.timerTick_turns : s.timerTick.turns = s.turns := rfl
@[simp] theorem State.timerTick_turnNo : s.timerTick.turnNo = s.turnNo := rfl
@[simp] theorem State.timerTick_out : s.timerTick.out = s.out := rfl

end Sys2Proof.Machine
end

