-- ==== Sys2Proof/Laws/Ops.lean ====
section
/-! SUPPORT. What each shared operation over registers, flags and the stack can do, said once. -/

namespace Sys2Proof.Machine

@[simp] theorem State.reg_setReg (s : State) (x y : Reg) (b : Byte) :
    (s.setReg x b).reg y = if y = x then b else s.reg y := by
  simp [State.reg, Vector.getElem_set, Fin.ext_iff, eq_comm]

/-- An update that leaves the register file alone leaves every register alone. -/
theorem State.reg_congr {s t : State} (h : t.v = s.v) (x : Reg) : t.reg x = s.reg x := by
  simp [State.reg, h]

@[simp] theorem State.reg_setPc (s : State) (a : Word) (x : Reg) : (s.setPc a).reg x = s.reg x := rfl
@[simp] theorem State.reg_setI (s : State) (a : Word) (x : Reg) : (s.setI a).reg x = s.reg x := rfl
@[simp] theorem State.reg_setDt (s : State) (b : Byte) (x : Reg) : (s.setDt b).reg x = s.reg x := rfl
@[simp] theorem State.reg_setSt (s : State) (b : Byte) (x : Reg) : (s.setSt b).reg x = s.reg x := rfl
@[simp] theorem State.reg_setMode (s : State) (m : Mode) (x : Reg) : (s.setMode m).reg x = s.reg x := rfl
@[simp] theorem State.reg_raise (s : State) (c : Cause) (x : Reg) : (s.raise c).reg x = s.reg x := rfl
@[simp] theorem State.reg_setFb (s : State) (f : Framebuffer) (x : Reg) : (s.setFb f).reg x = s.reg x := rfl
@[simp] theorem State.reg_emit (s : State) (e : Event) (x : Reg) : (s.emit e).reg x = s.reg x := rfl
@[simp] theorem State.reg_writeByte (s : State) (a : Nat) (b : Byte) (x : Reg) : (s.writeByte a b).reg x = s.reg x := rfl

/-- VF is V15 (R27). -/
@[simp] theorem vf_eq : vf = 15 := rfl

/-- The result stands where V[X] is VF; else both are written (R29). -/
@[simp] theorem State.reg_setFlagged (s : State) (x y : Reg) (f b : Byte) :
    (s.setFlagged x f b).reg y = if y = x then b else if y = 15 then f else s.reg y := by
  rw [State.setFlagged, State.reg_setReg, State.reg_setReg]
  rfl

/-- The mask keeps the value modulo 4096 (R9). -/
@[simp] theorem low12_toNat (a : Word) : (low12 a).toNat = a.toNat % 4096 := by
  simp [low12, Nat.and_two_pow_sub_one_eq_mod _ 12]

theorem low12_lt (a : Word) : (low12 a).toNat < 4096 := by
  rw [low12_toNat]; exact Nat.mod_lt _ (by decide)

/-- The mask changes nothing below 4096. -/
theorem low12_of_lt {a : Word} (h : a.toNat < 4096) : low12 a = a :=
  BitVec.eq_of_toNat_eq (by rw [low12_toNat, Nat.mod_eq_of_lt h])

/-- Two bytes on, modulo 4096, whatever the upper 4 bits were. -/
theorem low12_add_two_toNat (a : Word) : (low12 (a + 2)).toNat = (a.toNat + 2) % 4096 := by
  rw [low12_toNat, BitVec.toNat_add]
  have : (2 : Word).toNat = 2 := rfl
  rw [this, Nat.mod_mod_of_dvd _ (by decide)]

/-- A skip only changes `pc`, and only where its condition holds. -/
theorem State.skipIf_eq (s : State) (c : Bool) :
    s.skipIf c = { s with pc := if c then low12 (s.pc + 2) else s.pc } := by
  cases c <;> rfl

@[simp] theorem zext_toNat (b : Byte) : (zext b).toNat = b.toNat := by
  simp only [zext, BitVec.toNat_setWidth]
  exact Nat.mod_eq_of_lt (by have := b.isLt; omega)

@[simp] theorem keyCode_eq (b : Byte) : keyCode b = b.toNat % 16 := by
  simp [keyCode, Nat.and_two_pow_sub_one_eq_mod _ 4]

@[simp] theorem countDown_toNat (b : Byte) : (countDown b).toNat = b.toNat - 1 := by
  unfold countDown
  split
  · next h => simp [h]
  · next h =>
    have hb : b.toNat ≠ 0 := fun e => h (BitVec.eq_of_toNat_eq (by simpa using e))
    have h1 : (1 : Byte).toNat = 1 := rfl
    have := b.isLt
    rw [BitVec.toNat_sub, h1]
    omega

@[simp] theorem flagByte_true : flagByte true = 1 := rfl
@[simp] theorem flagByte_false : flagByte false = 0 := rfl

/-- Push: refused exactly on a full stack; else the value is on top and the entries below are as before (R32). -/
theorem State.push_none {s : State} {a : Word} (h : s.stackDepth ≤ s.sp) : s.push a = none := by
  have : ¬ s.sp < s.stackDepth := by omega
  simp [State.push, this]

theorem State.push_some {s : State} {a : Word} (h : s.sp < s.stackDepth) :
    s.push a = some { s with stk := s.stk.set s.sp a, sp := s.sp + 1 } := by
  simp [State.push, h]

/-- Push answers in one of two ways. -/
theorem State.push_cases (s : State) (a : Word) :
    (s.stackDepth ≤ s.sp ∧ s.push a = none) ∨
    (s.sp < s.stackDepth ∧ s.push a = some { s with stk := s.stk.set s.sp a, sp := s.sp + 1 }) := by
  rcases Nat.lt_or_ge s.sp s.stackDepth with h | h
  · exact .inr ⟨h, State.push_some h⟩
  · exact .inl ⟨h, State.push_none h⟩

/-- Pop: refused exactly on an empty stack; else the top entry is released (R32). -/
theorem State.pop_none {s : State} (h : s.sp = 0) : s.pop = none := by
  simp [State.pop, h]

theorem State.pop_some {s : State} {k : Nat} (h : s.sp = k + 1) : s.pop = some (s.stk.getD k 0, { s with sp := k }) := by
  simp [State.pop, h]

/-- Pop answers in one of two ways. -/
theorem State.pop_cases (s : State) :
    (s.sp = 0 ∧ s.pop = none) ∨ ∃ k, s.sp = k + 1 ∧ s.pop = some (s.stk.getD k 0, { s with sp := k }) := by
  cases h : s.sp with
  | zero => exact .inl ⟨rfl, State.pop_none h⟩
  | succ k => exact .inr ⟨k, rfl, State.pop_some h⟩

/-- The depth of a machine at power-on is the one it is made with (R31). -/
@[simp] theorem State.powerOn_stackDepth (f : Font) (depth : Nat) : (State.powerOn f depth).stackDepth = depth := by
  simp [State.powerOn, State.stackDepth]

/-- Re-initialising gives every stack entry the value 0 and keeps how many there are (R32, R243). -/
@[simp] theorem State.reinit_stackDepth (s : State) : s.reinit.stackDepth = s.stackDepth := by
  simp [State.reinit, State.powerOn, State.stackDepth]

/-- The lowest key down, where there is one (R182). -/
theorem State.lowestKey_some {s : State} {k : Fin 16} (hk : s.keys.getLsbD k.val = true)
    (hlow : ∀ j : Fin 16, j < k → s.keys.getLsbD j.val = false) : s.lowestKey = some (BitVec.ofNat 8 k.val) := by
  have hf : (List.range 16).find? s.keyDown = some k.val := by
    rw [List.find?_range_eq_some]
    exact ⟨hk, by simp, fun j hj => by simpa [State.keyDown] using hlow ⟨j, by omega⟩ hj⟩
  simp [State.lowestKey, hf]

/-- No key down, no key found. -/
theorem State.lowestKey_none {s : State} (h : s.keys = 0) : s.lowestKey = none := by
  simp [State.lowestKey, State.keyDown, h]

/-- A free or a scheduled turn is used up in the same way. -/
theorem State.endTurn_eq (s : State) :
    s.endTurn = { s with turns := s.turns.tail, turnNo := if s.turns.isEmpty then s.turnNo + 1 else s.turnNo, out := none } := by
  unfold State.endTurn
  cases h : s.turns <;> simp

end Sys2Proof.Machine
end

