-- ==== Sys2Proof/Laws/Display.lean ====
section
/-! SUPPORT. What plotting a pixel and drawing a sprite row do, said once (R170). -/

namespace Sys2Proof.Machine

@[simp] theorem setColumn_bit (row : BitVec 64) (x k : Nat) (hk : k < 64) (b : Bool) :
    (setColumn row x b).getLsbD k = if k = x then b else row.getLsbD k := by
  unfold setColumn
  cases b
  · by_cases h : k = x
    · subst h
      simp [hk]
    · rcases Nat.lt_or_ge k x with hl | hg
      · simp [hk, h, hl]
      · have h1 : ¬ k < x := by omega
        have h2 : k - x ≠ 0 := by omega
        simp [hk, h, h1, h2]
  · by_cases h : k = x
    · subst h
      simp [hk]
    · rcases Nat.lt_or_ge k x with hl | hg
      · simp [hk, h, hl]
      · have h1 : ¬ k < x := by omega
        have h2 : k - x ≠ 0 := by omega
        simp [hk, h, h1, h2]

/-- A pixel write is seen at its own pixel and nowhere else. -/
@[simp] theorem pixel_setPixel (f : Framebuffer) (y v : Fin 32) (x u : Fin 64) (b : Bool) :
    pixel (setPixel f y x b) v u = if v = y ∧ u = x then b else pixel f v u := by
  unfold pixel setPixel
  rw [Vector.getElem_set]
  by_cases hv : v = y
  · subst hv
    rw [if_pos rfl, setColumn_bit _ _ _ u.isLt]
    by_cases hu : u = x
    · rw [if_pos (congrArg Fin.val hu), if_pos ⟨rfl, hu⟩]
    · rw [if_neg fun e => hu (Fin.ext e), if_neg fun e => hu e.2]
  · have : ¬ y.val = v.val := fun e => hv (Fin.ext e.symm)
    simp [hv, this]

/-- Framebuffers with the same pixels are equal. -/
theorem fb_ext {f g : Framebuffer} (h : ∀ y x, pixel f y x = pixel g y x) : f = g := by
  apply Vector.ext
  intro y hy
  apply BitVec.eq_of_getLsbD_eq
  intro x hx
  exact h ⟨y, hy⟩ ⟨x, hx⟩

@[simp] theorem pixel_clearedFb (y : Fin 32) (x : Fin 64) : pixel clearedFb y x = false := by
  simp [pixel, clearedFb]

/-- A plot inverts its own pixel where the bit is 1. -/
theorem plot_fst (x y : Nat) (bit : Bool) (acc : Framebuffer × Bool) (v : Fin 32) (u : Fin 64) :
    pixel (plot x y bit acc).1 v u = if v.val = y % 32 ∧ u.val = x % 64 then pixel acc.1 v u ^^ bit else pixel acc.1 v u := by
  obtain ⟨f, c⟩ := acc
  have hp : (plot x y bit (f, c)).1 = setPixel f (Fin.ofNat 32 y) (Fin.ofNat 64 x)
      (pixel f (Fin.ofNat 32 y) (Fin.ofNat 64 x) ^^ bit) := rfl
  rw [hp, pixel_setPixel]
  by_cases h : v.val = y % 32 ∧ u.val = x % 64
  · have hv : v = Fin.ofNat 32 y := Fin.ext h.1
    have hu : u = Fin.ofNat 64 x := Fin.ext h.2
    rw [if_pos ⟨hv, hu⟩, if_pos h, hv, hu]
  · have hn : ¬ (v = Fin.ofNat 32 y ∧ u = Fin.ofNat 64 x) :=
      fun e => h ⟨congrArg Fin.val e.1, congrArg Fin.val e.2⟩
    rw [if_neg hn, if_neg h]

/-- A plot adds a collision exactly when a 1 bit falls on a set pixel. -/
theorem plot_snd (x y : Nat) (bit : Bool) (acc : Framebuffer × Bool) :
    (plot x y bit acc).2 = (acc.2 || (bit && pixel acc.1 (Fin.ofNat 32 y) (Fin.ofNat 64 x))) := by
  obtain ⟨f, c⟩ := acc
  simp only [plot]
  cases bit <;> cases pixel f (Fin.ofNat 32 y) (Fin.ofNat 64 x) <;> rfl

/-- The 1 bits among the first n of a sprite row, placed at column x and line y. -/
def RowSets (x y : Nat) (row : Byte) (n : Nat) (v : Fin 32) (u : Fin 64) : Prop :=
  ∃ b, b < n ∧ (x + b) % 64 = u.val ∧ y % 32 = v.val ∧ row.getLsbD (7 - b) = true

theorem rowSets_succ (x y : Nat) (row : Byte) (n : Nat) (v : Fin 32) (u : Fin 64) :
    RowSets x y row (n + 1) v u ↔
      RowSets x y row n v u ∨ ((x + n) % 64 = u.val ∧ y % 32 = v.val ∧ row.getLsbD (7 - n) = true) := by
  constructor
  · rintro ⟨b, hb, h⟩
    rcases Nat.lt_succ_iff_lt_or_eq.mp hb with hlt | rfl
    · exact .inl ⟨b, hlt, h⟩
    · exact .inr h
  · rintro (⟨b, hb, h⟩ | h)
    · exact ⟨b, by omega, h⟩
    · exact ⟨n, by omega, h⟩

/-- A row inverts the pixels its 1 bits fall on. -/
theorem drawRow_fst {n : Nat} (hn : n ≤ 8) (x y : Nat) (row : Byte) (acc : Framebuffer × Bool) (v : Fin 32) (u : Fin 64) :
    (RowSets x y row n v u → pixel (drawRow x y row n acc).1 v u = !pixel acc.1 v u) ∧
    (¬ RowSets x y row n v u → pixel (drawRow x y row n acc).1 v u = pixel acc.1 v u) := by
  induction n with
  | zero => exact ⟨fun ⟨b, hb, _⟩ => by omega, fun _ => rfl⟩
  | succ n ih =>
    have ih := ih (by omega)
    have hp : drawRow x y row (n + 1) acc = plot (x + n) y (row.getLsbD (7 - n)) (drawRow x y row n acc) := rfl
    rw [hp, plot_fst, rowSets_succ]
    by_cases hat : v.val = y % 32 ∧ u.val = (x + n) % 64
    · have hno : ¬ RowSets x y row n v u := fun ⟨b, hb, h, _⟩ => by omega
      rw [if_pos hat, ih.2 hno]
      cases hbit : row.getLsbD (7 - n)
      · simp [hno]
      · simp [hno, hat.1, hat.2]
    · rw [if_neg hat]
      have hno : ¬ ((x + n) % 64 = u.val ∧ y % 32 = v.val ∧ row.getLsbD (7 - n) = true) :=
        fun h => hat ⟨h.2.1.symm, h.1.symm⟩
      exact ⟨fun h => ih.1 (h.resolve_right hno), fun h => ih.2 fun hr => h (.inl hr)⟩

/-- A row adds a collision exactly when one of its 1 bits falls on a set pixel. -/
theorem drawRow_snd {n : Nat} (hn : n ≤ 8) (x y : Nat) (row : Byte) (acc : Framebuffer × Bool) :
    (drawRow x y row n acc).2 = true ↔ acc.2 = true ∨ ∃ v u, RowSets x y row n v u ∧ pixel acc.1 v u = true := by
  induction n with
  | zero =>
    refine ⟨.inl, ?_⟩
    rintro (h | ⟨v, u, ⟨b, hb, _⟩, _⟩)
    · exact h
    · omega
  | succ n ih =>
    have ih := ih (by omega)
    have hp : drawRow x y row (n + 1) acc = plot (x + n) y (row.getLsbD (7 - n)) (drawRow x y row n acc) := rfl
    have hno : ¬ RowSets x y row n (Fin.ofNat 32 y) (Fin.ofNat 64 (x + n)) := by
      rintro ⟨b, hb, h, _⟩
      simp only [Fin.val_ofNat] at h
      omega
    rw [hp, plot_snd, (drawRow_fst (by omega) x y row acc _ _).2 hno, Bool.or_eq_true, Bool.and_eq_true, ih]
    constructor
    · rintro ((h | ⟨v, u, hr, h⟩) | ⟨hb, h⟩)
      · exact .inl h
      · exact .inr ⟨v, u, (rowSets_succ ..).mpr (.inl hr), h⟩
      · exact .inr ⟨_, _, (rowSets_succ ..).mpr (.inr ⟨rfl, rfl, hb⟩), h⟩
    · rintro (h | ⟨v, u, hr, h⟩)
      · exact .inl (.inl h)
      · rcases (rowSets_succ ..).mp hr with hr | ⟨hx, hy, hb⟩
        · exact .inl (.inr ⟨v, u, hr, h⟩)
        · have hv : Fin.ofNat 32 y = v := Fin.ext hy
          have hu : Fin.ofNat 64 (x + n) = u := Fin.ext hx
          exact .inr ⟨hb, by rw [hv, hu]; exact h⟩

theorem drawRows_cons (x y : Nat) (row : Byte) (rows : List Byte) (acc : Framebuffer × Bool) :
    drawRows x y (row :: rows) acc = drawRows x (y + 1) rows (drawRow x y row 8 acc) := rfl

/-- The sprite's rows are the bytes from I on. -/
theorem spriteRows_length (s : State) (n : Nat) : (s.spriteRows n).length = n := by
  simp [State.spriteRows]

theorem spriteRows_getD (s : State) {n r : Nat} (h : r < n) : (s.spriteRows n).getD r 0 = s.readByte (s.ea r) := by
  simp [State.spriteRows, h]

end Sys2Proof.Machine
end

