-- ==== Sys2Proof/Laws/Memory.lean ====
section
/-! SUPPORT. Memory: read after write, writes leave other addresses alone, every operation keeps the canonical form, and a
canonical memory is determined by what its addresses read as. -/

namespace Sys2Proof.Machine

variable {f : Font}

/-! ## Lookup -/

@[simp] theorem Memory.lookup_insert (m : Memory) (a c : Nat) (x : Byte) :
    (m.insert a x).lookup c = if a = c then some x else m.lookup c := by
  induction m with
  | nil => simp [Memory.insert, Memory.lookup]
  | cons p m ih =>
    obtain ⟨b, y⟩ := p
    rcases Nat.lt_trichotomy a b with h | rfl | h
    · simp [Memory.insert, Memory.lookup, h]
    · by_cases hc : a = c <;> simp [Memory.insert, Memory.lookup, hc]
    · have h1 : ¬ a < b := by omega
      have h2 : ¬ a = b := by omega
      by_cases hb : b = c
      · subst hb; simp [Memory.insert, Memory.lookup, h1, h2]
      · simp [Memory.insert, Memory.lookup, h1, h2, hb, ih]

@[simp] theorem Memory.lookup_remove (m : Memory) (a c : Nat) :
    (m.remove a).lookup c = if a = c then none else m.lookup c := by
  induction m with
  | nil => simp [Memory.remove, Memory.lookup]
  | cons p m ih =>
    obtain ⟨b, y⟩ := p
    by_cases h1 : b = a
    · subst h1
      by_cases h2 : b = c <;> simp_all [Memory.remove, Memory.lookup]
    · by_cases hb : b = c
      · subst hb
        simp [Memory.remove, Memory.lookup, h1, Ne.symm h1]
      · simp [Memory.remove, Memory.lookup, h1, hb, ih]

/-! ## Read and write -/

/-- An address is read modulo 4096 (R60). -/
@[simp] theorem Memory.read_mod (m : Memory) (a : Nat) : m.read f (a % 4096) = m.read f a := by
  simp [Memory.read]

/-- Addresses that agree modulo 4096 name one cell (R60). -/
theorem Memory.read_congr (m : Memory) {a b : Nat} (h : a % 4096 = b % 4096) : m.read f a = m.read f b := by
  rw [← Memory.read_mod m a, h, Memory.read_mod]

/-- A write is seen at its own address and nowhere else, addresses modulo 4096 (R60, R70). -/
@[simp] theorem Memory.read_write (m : Memory) (a c : Nat) (x : Byte) :
    (m.write f a x).read f c = if c % 4096 = a % 4096 then x else m.read f c := by
  unfold Memory.write Memory.read
  by_cases h : c % 4096 = a % 4096
  · rw [if_pos h]
    split_ifs with hx
    · simp [h, ← hx]
    · simp [h]
  · have h' : ¬ a % 4096 = c % 4096 := fun e => h e.symm
    rw [if_neg h]
    split_ifs <;> simp [h']

@[simp] theorem State.readByte_writeByte (s : State) (a c : Nat) (x : Byte) :
    (s.writeByte a x).readByte c = if c % 4096 = a % 4096 then x else s.readByte c :=
  Memory.read_write s.mem a c x

/-- An update that leaves memory and the font alone leaves every byte alone. -/
theorem State.readByte_congr {s t : State} (h : t.mem = s.mem) (hf : t.font = s.font) (a : Nat) :
    t.readByte a = s.readByte a := by
  simp [State.readByte, h, hf]

@[simp] theorem State.ea_mod (s : State) (k : Nat) : s.ea k % 4096 = s.ea k := Nat.mod_mod _ _

theorem State.ea_lt (s : State) (k : Nat) : s.ea k < 4096 := Nat.mod_lt _ (by decide)

/-- An update that leaves I alone leaves every effective address alone. -/
theorem State.ea_congr {s t : State} (h : t.i = s.i) (k : Nat) : t.ea k = s.ea k := by
  simp [State.ea, h]

/-- Fewer than 4096 bytes from I on are all at different addresses (R64). -/
theorem State.ea_inj (s : State) {j k : Nat} (hj : j < 4096) (hk : k < 4096) : s.ea j = s.ea k ↔ j = k := by
  unfold State.ea
  simp only [Config.memSize]
  omega

/-! ## The canonical form -/

theorem Memory.wfFrom_mono {lo lo' : Nat} (h : lo' ≤ lo) : ∀ {m : Memory}, m.wfFrom f lo = true → m.wfFrom f lo' = true
  | [], _ => rfl
  | (a, x) :: m, hw => by
    simp only [Memory.wfFrom, Bool.and_eq_true, decide_eq_true_eq] at hw ⊢
    exact ⟨⟨⟨h.trans hw.1.1.1, hw.1.1.2⟩, hw.1.2⟩, hw.2⟩

theorem Memory.wfFrom_insert {a : Nat} {x : Byte} (ha : a < 4096) (hx : x ≠ initByte f a) :
    ∀ {lo : Nat} {m : Memory}, lo ≤ a → m.wfFrom f lo = true → (m.insert a x).wfFrom f lo = true
  | lo, [], hlo, _ => by simp [Memory.insert, Memory.wfFrom, hlo, ha, hx]
  | lo, (b, y) :: m, hlo, hw => by
    simp only [Memory.wfFrom, Bool.and_eq_true, decide_eq_true_eq] at hw
    unfold Memory.insert
    split_ifs with h1 h2
    · simp only [Memory.wfFrom, Bool.and_eq_true, decide_eq_true_eq, bne_iff_ne]
      exact ⟨⟨⟨hlo, ha⟩, hx⟩, ⟨⟨⟨h1, hw.1.1.2⟩, bne_iff_ne.mp hw.1.2⟩, hw.2⟩⟩
    · subst h2
      simp only [Memory.wfFrom, Bool.and_eq_true, decide_eq_true_eq, bne_iff_ne]
      exact ⟨⟨⟨hlo, ha⟩, hx⟩, hw.2⟩
    · simp only [Memory.wfFrom, Bool.and_eq_true, decide_eq_true_eq]
      exact ⟨hw.1, Memory.wfFrom_insert ha hx (by omega) hw.2⟩

theorem Memory.wfFrom_remove {a : Nat} : ∀ {lo : Nat} {m : Memory}, m.wfFrom f lo = true → (m.remove a).wfFrom f lo = true
  | _, [], _ => rfl
  | lo, (b, y) :: m, hw => by
    simp only [Memory.wfFrom, Bool.and_eq_true, decide_eq_true_eq] at hw
    unfold Memory.remove
    split_ifs with h
    · exact Memory.wfFrom_remove (Memory.wfFrom_mono (by omega) hw.2)
    · simp only [Memory.wfFrom, Bool.and_eq_true, decide_eq_true_eq]
      exact ⟨hw.1, Memory.wfFrom_remove hw.2⟩

/-- A write keeps the canonical form. -/
theorem Memory.wf_write {m : Memory} (a : Nat) (x : Byte) (h : m.wf f = true) : (m.write f a x).wf f = true := by
  unfold Memory.write
  split_ifs with hx
  · exact Memory.wfFrom_remove h
  · exact Memory.wfFrom_insert (Nat.mod_lt _ (by decide)) hx (Nat.zero_le _) h

theorem Memory.wfFrom_filter (p : Host.Cell → Bool) : ∀ {lo : Nat} {m : Memory}, m.wfFrom f lo = true →
    Memory.wfFrom f lo (m.filter p) = true
  | _, [], _ => rfl
  | lo, (b, y) :: m, hw => by
    simp only [Memory.wfFrom, Bool.and_eq_true, decide_eq_true_eq] at hw
    have ih := Memory.wfFrom_filter p hw.2
    by_cases hp : p (b, y) = true
    · rw [List.filter_cons_of_pos hp]
      simp only [Memory.wfFrom, Bool.and_eq_true, decide_eq_true_eq]
      exact ⟨hw.1, ih⟩
    · rw [List.filter_cons_of_neg hp]
      exact Memory.wfFrom_mono (by omega) ih

theorem Memory.wfFrom_append {b : Nat} {m₂ : Memory} (h₂ : m₂.wfFrom f b = true) : ∀ {lo : Nat} {m₁ : Memory}, lo ≤ b →
    (∀ c ∈ m₁, c.1 < b) → m₁.wfFrom f lo = true → Memory.wfFrom f lo (m₁ ++ m₂) = true
  | _, [], hlo, _, _ => Memory.wfFrom_mono hlo h₂
  | lo, (a, x) :: m₁, hlo, hb, hw => by
    simp only [Memory.wfFrom, Bool.and_eq_true, decide_eq_true_eq] at hw
    have ha : a < b := hb (a, x) (by simp)
    simp only [List.cons_append, Memory.wfFrom, Bool.and_eq_true, decide_eq_true_eq]
    exact ⟨hw.1, Memory.wfFrom_append h₂ ha (fun c hc => hb c (by simp [hc])) hw.2⟩

theorem wfFrom_romCells : ∀ (rom : List Byte) (a : Nat), a + rom.length ≤ 4096 → (romCells f a rom).wfFrom f a = true
  | [], _, _ => rfl
  | x :: rom, a, h => by
    simp only [List.length_cons] at h
    have ih := wfFrom_romCells rom (a + 1) (by omega)
    unfold romCells
    split_ifs with hx
    · exact Memory.wfFrom_mono (by omega) ih
    · simp only [Memory.wfFrom, Bool.and_eq_true, decide_eq_true_eq, bne_iff_ne]
      exact ⟨⟨⟨Nat.le_refl _, by simp only [Config.memSize]; omega⟩, hx⟩, ih⟩

/-- A load keeps the canonical form. -/
theorem Memory.wf_loaded {m : Memory} {rom : List Byte} (hl : rom.length ≤ 3584) (h : m.wf f = true) :
    (m.loaded f rom).wf f = true := by
  refine Memory.wfFrom_append (b := 0x200) (wfFrom_romCells rom 0x200 (by omega)) (by omega) ?_ (Memory.wfFrom_filter _ h)
  intro c hc
  have := (List.mem_filter.mp hc).2
  simp only [Bool.and_eq_true, decide_eq_true_eq] at this
  exact this.2

/-- Below its first address a canonical memory lists nothing. -/
theorem Memory.lookup_of_lt : ∀ {lo a : Nat} {m : Memory}, m.wfFrom f lo = true → a < lo → m.lookup a = none
  | _, _, [], _, _ => rfl
  | lo, a, (b, y) :: m, hw, ha => by
    simp only [Memory.wfFrom, Bool.and_eq_true, decide_eq_true_eq] at hw
    have hb : ¬ b = a := by omega
    simp only [Memory.lookup, hb, if_false]
    exact Memory.lookup_of_lt hw.2 (by omega)

/-- A listed cell differs from what an unlisted address reads as, and is below 4096. -/
theorem Memory.lookup_wf : ∀ {lo a : Nat} {x : Byte} {m : Memory}, m.wfFrom f lo = true → m.lookup a = some x →
    x ≠ initByte f a ∧ a < 4096
  | _, _, _, [], _, h => by simp [Memory.lookup] at h
  | lo, a, x, (b, y) :: m, hw, h => by
    simp only [Memory.wfFrom, Bool.and_eq_true, decide_eq_true_eq, bne_iff_ne] at hw
    unfold Memory.lookup at h
    split_ifs at h with hb
    · subst hb
      obtain rfl : y = x := by simpa using h
      exact ⟨hw.1.2, hw.1.1.2⟩
    · exact Memory.lookup_wf hw.2 h

theorem Memory.lookup_eq_of_read_eq {m n : Memory} {lo lo' : Nat} (hm : m.wfFrom f lo = true) (hn : n.wfFrom f lo' = true)
    (h : ∀ a, m.read f a = n.read f a) (a : Nat) : m.lookup a = n.lookup a := by
  by_cases ha : a < 4096
  · have hr := h a
    simp only [Memory.read, Config.memSize, Nat.mod_eq_of_lt ha] at hr
    cases h1 : m.lookup a <;> cases h2 : n.lookup a <;> simp only [h1, h2, Option.getD_none, Option.getD_some] at hr
    · rfl
    · exact absurd hr.symm (Memory.lookup_wf hn h2).1
    · exact absurd hr (Memory.lookup_wf hm h1).1
    · rw [hr]
  · cases h1 : m.lookup a <;> cases h2 : n.lookup a
    · rfl
    · exact absurd (Memory.lookup_wf hn h2).2 ha
    · exact absurd (Memory.lookup_wf hm h1).2 ha
    · exact absurd (Memory.lookup_wf hm h1).2 ha

theorem Memory.ext_lookup : ∀ {lo lo' : Nat} {m n : Memory}, m.wfFrom f lo = true → n.wfFrom f lo' = true →
    (∀ a, m.lookup a = n.lookup a) → m = n
  | _, _, [], [], _, _, _ => rfl
  | _, _, [], (b, y) :: n, _, _, h => by simpa [Memory.lookup] using h b
  | _, _, (b, y) :: m, [], _, _, h => by simpa [Memory.lookup] using h b
  | lo, lo', (b, y) :: m, (c, z) :: n, hm, hn, h => by
    simp only [Memory.wfFrom, Bool.and_eq_true, decide_eq_true_eq] at hm hn
    have hbc : b = c := by
      rcases Nat.lt_trichotomy b c with hlt | rfl | hgt
      · have := h b
        have hcb : ¬ c = b := by omega
        simp [Memory.lookup, hcb, Memory.lookup_of_lt hn.2 (show b < c + 1 by omega)] at this
      · rfl
      · have := h c
        have hcb : ¬ b = c := by omega
        simp [Memory.lookup, hcb, Memory.lookup_of_lt hm.2 (show c < b + 1 by omega)] at this
    subst hbc
    obtain rfl : y = z := by simpa [Memory.lookup] using h b
    have hrest : m = n := Memory.ext_lookup hm.2 hn.2 fun a => by
      by_cases ha : b = a
      · subst ha
        rw [Memory.lookup_of_lt hm.2 (Nat.lt_succ_self b), Memory.lookup_of_lt hn.2 (Nat.lt_succ_self b)]
      · simpa [Memory.lookup, ha] using h a
    rw [hrest]

/-- Canonical memories that read alike are equal data. -/
theorem Memory.ext_read {m n : Memory} (hm : m.wf f = true) (hn : n.wf f = true) (h : ∀ a, m.read f a = n.read f a) : m = n :=
  Memory.ext_lookup hm hn (Memory.lookup_eq_of_read_eq hm hn h)

/-! ## What a loaded memory holds -/

theorem Memory.lookup_append (m n : Memory) (a : Nat) :
    Memory.lookup (m ++ n) a = (m.lookup a).or (n.lookup a) := by
  induction m with
  | nil => simp [Memory.lookup]
  | cons p m ih =>
    obtain ⟨b, y⟩ := p
    by_cases hb : b = a <;> simp [Memory.lookup, hb, ih]

theorem Memory.lookup_filter (p : Nat → Bool) (m : Memory) (a : Nat) :
    Memory.lookup (m.filter fun c => p c.1) a = if p a then m.lookup a else none := by
  induction m with
  | nil => simp [Memory.lookup]
  | cons c m ih =>
    obtain ⟨b, y⟩ := c
    by_cases hp : p b = true
    · rw [List.filter_cons_of_pos (by simpa using hp)]
      by_cases hb : b = a
      · subst hb; simp [Memory.lookup, hp]
      · simp [Memory.lookup, hb, ih]
    · rw [List.filter_cons_of_neg (by simpa using hp), ih]
      by_cases hb : b = a
      · subst hb; simp [hp]
      · simp [Memory.lookup, hb]

/-- Outside the ROM its cells list nothing. -/
theorem lookup_romCells_outside : ∀ (rom : List Byte) (a c : Nat), c < a ∨ a + rom.length ≤ c →
    (romCells f a rom).lookup c = none
  | [], _, _, _ => rfl
  | x :: rom, a, c, h => by
    simp only [List.length_cons] at h
    have ih := lookup_romCells_outside rom (a + 1) c (by omega)
    unfold romCells
    split_ifs
    · exact ih
    · have : ¬ a = c := by omega
      simp [Memory.lookup, this, ih]

/-- Inside the ROM an address reads as the ROM's byte. -/
theorem getD_romCells : ∀ (rom : List Byte) (a k : Nat), k < rom.length →
    ((romCells f a rom).lookup (a + k)).getD (initByte f (a + k)) = rom.getD k 0
  | x :: rom, a, 0, _ => by
    unfold romCells
    split_ifs with hx
    · simp [lookup_romCells_outside rom (a + 1) a (by omega), hx]
    · simp [Memory.lookup]
  | x :: rom, a, k + 1, h => by
    have ih := getD_romCells rom (a + 1) k (by simpa using h)
    have hk : a + 1 + k = a + (k + 1) := by omega
    rw [hk] at ih
    unfold romCells
    split_ifs
    · simpa using ih
    · have : ¬ a = a + (k + 1) := by omega
      simp only [Memory.lookup, this, if_false]
      simpa using ih

/-- The reserved range is left as it was; below it is the font; from 0x200 on the ROM and then zeros (R243). -/
theorem Memory.read_loaded_low (m : Memory) (rom : List Byte) {a : Nat} (ha : a < 0x200) :
    (m.loaded f rom).read f a = if 0x050 ≤ a then m.read f a else initByte f a := by
  have hm : a % 4096 = a := Nat.mod_eq_of_lt (by omega)
  have hr := lookup_romCells_outside (f := f) rom 0x200 a (.inl ha)
  have hf := Memory.lookup_filter (fun a => decide (0x050 ≤ a) && decide (a < 0x200)) m a
  simp only [Memory.read, Memory.loaded, Config.memSize, hm, Memory.lookup_append, hr, Option.or_none, hf]
  by_cases h : 0x050 ≤ a <;> simp [h, ha]

theorem Memory.read_loaded_program (m : Memory) (rom : List Byte) {k : Nat} (hk : k < rom.length) (h : 0x200 + k < 4096) :
    (m.loaded f rom).read f (0x200 + k) = rom.getD k 0 := by
  have hm : (0x200 + k) % 4096 = 0x200 + k := Nat.mod_eq_of_lt h
  have hf := Memory.lookup_filter (fun a => decide (0x050 ≤ a) && decide (a < 0x200)) m (0x200 + k)
  have hn : ¬ 0x200 + k < 0x200 := by omega
  simp only [hn, decide_false, Bool.and_false, Bool.false_eq_true, if_false] at hf
  simp only [Memory.read, Memory.loaded, Config.memSize, hm, Memory.lookup_append, hf, Option.none_or]
  exact getD_romCells rom 0x200 k hk

theorem Memory.read_loaded_cleared (m : Memory) (rom : List Byte) {a : Nat} (ha : 0x200 + rom.length ≤ a) (h : a < 4096) :
    (m.loaded f rom).read f a = 0 := by
  have hm : a % 4096 = a := Nat.mod_eq_of_lt h
  have hf := Memory.lookup_filter (fun a => decide (0x050 ≤ a) && decide (a < 0x200)) m a
  have hn : ¬ a < 0x200 := by omega
  have hn' : ¬ a < 0x050 := by omega
  simp only [hn, decide_false, Bool.and_false, Bool.false_eq_true, if_false] at hf
  simp only [Memory.read, Memory.loaded, Config.memSize, hm, Memory.lookup_append, hf, Option.none_or,
    lookup_romCells_outside rom 0x200 a (.inr ha), Option.getD_none, initByte, Config.fontEnd, Config.progBase, hn, hn', dite_false, if_false]

end Sys2Proof.Machine
end

