-- ==== Sys2Proof/Laws/PerInstr.lean ====
section
/-! SUPPORT. The family EncodingFits: the encoding of a well-formed instruction matches a row of the opcode map that builds it back.
One lemma per constructor of Instr. -/

namespace Sys2Proof.Laws.EncodingFits

/-- The word of a well-formed instruction selects a row of R96, and the row's fields are the instruction's operands. -/
def Statement (i : Instr) : Prop :=
  i.wellFormed = true → ∃ r ∈ opTable, encode i &&& r.mask = r.pat ∧ r.build (encode i) = i

/-- The row is the k-th of the map. -/
theorem by_row {i : Instr} (k : Nat) {r : OpRow} (hr : opTable[k]? = some r) (hm : encode i &&& r.mask = r.pat)
    (hb : r.build (encode i) = i) : ∃ r ∈ opTable, encode i &&& r.mask = r.pat ∧ r.build (encode i) = i :=
  ⟨r, List.mem_of_getElem? hr, hm, hb⟩


theorem cls : Statement .cls := fun _ => by_row 0 rfl rfl rfl

theorem ret : Statement .ret := fun _ => by_row 1 rfl rfl rfl

theorem jp (nnn : Word) : Statement (.jp nnn) := fun h =>
  by_row 2 rfl (encodeNNN_mask _ nnn) (by
    show Instr.jp (fieldNNN (encodeNNN _ nnn)) = _
    rw [fieldNNN_encodeNNN, fieldNNN_of_isAddr h])

theorem call (nnn : Word) : Statement (.call nnn) := fun h =>
  by_row 3 rfl (encodeNNN_mask _ nnn) (by
    show Instr.call (fieldNNN (encodeNNN _ nnn)) = _
    rw [fieldNNN_encodeNNN, fieldNNN_of_isAddr h])

theorem seImm (x : Reg) (nn : Byte) : Statement (.seImm x nn) := fun _ =>
  by_row 4 rfl (encodeXNN_mask _ x nn) (by simp [encode])

theorem sneImm (x : Reg) (nn : Byte) : Statement (.sneImm x nn) := fun _ =>
  by_row 5 rfl (encodeXNN_mask _ x nn) (by simp [encode])

theorem seReg (x y : Reg) : Statement (.seReg x y) := fun _ =>
  by_row 6 rfl (encodeXY_mask _ x y _) (by simp [encode])

theorem ldImm (x : Reg) (nn : Byte) : Statement (.ldImm x nn) := fun _ =>
  by_row 7 rfl (encodeXNN_mask _ x nn) (by simp [encode])

theorem addImm (x : Reg) (nn : Byte) : Statement (.addImm x nn) := fun _ =>
  by_row 8 rfl (encodeXNN_mask _ x nn) (by simp [encode])

theorem ldReg (x y : Reg) : Statement (.ldReg x y) := fun _ =>
  by_row 9 rfl (encodeXY_mask _ x y _) (by simp [encode])

theorem orReg (x y : Reg) : Statement (.orReg x y) := fun _ =>
  by_row 10 rfl (encodeXY_mask _ x y _) (by simp [encode])

theorem andReg (x y : Reg) : Statement (.andReg x y) := fun _ =>
  by_row 11 rfl (encodeXY_mask _ x y _) (by simp [encode])

theorem xorReg (x y : Reg) : Statement (.xorReg x y) := fun _ =>
  by_row 12 rfl (encodeXY_mask _ x y _) (by simp [encode])

theorem addReg (x y : Reg) : Statement (.addReg x y) := fun _ =>
  by_row 13 rfl (encodeXY_mask _ x y _) (by simp [encode])

theorem subReg (x y : Reg) : Statement (.subReg x y) := fun _ =>
  by_row 14 rfl (encodeXY_mask _ x y _) (by simp [encode])

theorem shr (x y : Reg) : Statement (.shr x y) := fun _ =>
  by_row 15 rfl (encodeXY_mask _ x y _) (by simp [encode])

theorem subnReg (x y : Reg) : Statement (.subnReg x y) := fun _ =>
  by_row 16 rfl (encodeXY_mask _ x y _) (by simp [encode])

theorem shl (x y : Reg) : Statement (.shl x y) := fun _ =>
  by_row 17 rfl (encodeXY_mask _ x y _) (by simp [encode])

theorem sneReg (x y : Reg) : Statement (.sneReg x y) := fun _ =>
  by_row 18 rfl (encodeXY_mask _ x y _) (by simp [encode])

theorem ldI (nnn : Word) : Statement (.ldI nnn) := fun h =>
  by_row 19 rfl (encodeNNN_mask _ nnn) (by
    show Instr.ldI (fieldNNN (encodeNNN _ nnn)) = _
    rw [fieldNNN_encodeNNN, fieldNNN_of_isAddr h])

theorem jpV0 (nnn : Word) : Statement (.jpV0 nnn) := fun h =>
  by_row 20 rfl (encodeNNN_mask _ nnn) (by
    show Instr.jpV0 (fieldNNN (encodeNNN _ nnn)) = _
    rw [fieldNNN_encodeNNN, fieldNNN_of_isAddr h])

theorem rnd (x : Reg) (nn : Byte) : Statement (.rnd x nn) := fun _ =>
  by_row 21 rfl (encodeXNN_mask _ x nn) (by simp [encode])

theorem drw (x y : Reg) (n : Nat) : Statement (.drw x y n) := fun h =>
  by_row 22 rfl (encodeXYN_mask _ x y _) (by
    have hn : n < 16 := by simpa [Instr.wellFormed] using h
    simp [encode, Nat.mod_eq_of_lt hn])

theorem skp (x : Reg) : Statement (.skp x) := fun _ =>
  by_row 23 rfl (encodeXB_mask _ x _) (by simp [encode, encodeXB_eq])

theorem sknp (x : Reg) : Statement (.sknp x) := fun _ =>
  by_row 24 rfl (encodeXB_mask _ x _) (by simp [encode, encodeXB_eq])

theorem ldVxDt (x : Reg) : Statement (.ldVxDt x) := fun _ =>
  by_row 25 rfl (encodeXB_mask _ x _) (by simp [encode, encodeXB_eq])

theorem ldVxK (x : Reg) : Statement (.ldVxK x) := fun _ =>
  by_row 26 rfl (encodeXB_mask _ x _) (by simp [encode, encodeXB_eq])

theorem ldDtVx (x : Reg) : Statement (.ldDtVx x) := fun _ =>
  by_row 27 rfl (encodeXB_mask _ x _) (by simp [encode, encodeXB_eq])

theorem ldStVx (x : Reg) : Statement (.ldStVx x) := fun _ =>
  by_row 28 rfl (encodeXB_mask _ x _) (by simp [encode, encodeXB_eq])

theorem addI (x : Reg) : Statement (.addI x) := fun _ =>
  by_row 29 rfl (encodeXB_mask _ x _) (by simp [encode, encodeXB_eq])

theorem ldF (x : Reg) : Statement (.ldF x) := fun _ =>
  by_row 30 rfl (encodeXB_mask _ x _) (by simp [encode, encodeXB_eq])

theorem ldB (x : Reg) : Statement (.ldB x) := fun _ =>
  by_row 31 rfl (encodeXB_mask _ x _) (by simp [encode, encodeXB_eq])

theorem storeRegs (x : Reg) : Statement (.storeRegs x) := fun _ =>
  by_row 32 rfl (encodeXB_mask _ x _) (by simp [encode, encodeXB_eq])

theorem loadRegs (x : Reg) : Statement (.loadRegs x) := fun _ =>
  by_row 33 rfl (encodeXB_mask _ x _) (by simp [encode, encodeXB_eq])

end Sys2Proof.Laws.EncodingFits
end

