-- ==== Sys2Proof/Laws/Transfer.lean ====
section
/-! SUPPORT. What the block transfers of FX55 and FX65 do, said once (R164, R165). -/

namespace Sys2Proof.Machine

/-- A store loop changes memory alone. -/
theorem storeLoop_eq (n : Nat) (s : State) : storeLoop n s = { s with mem := (storeLoop n s).mem } := by
  induction n with
  | zero => rfl
  | succ n ih =>
    have h : storeLoop (n + 1) s = (storeLoop n s).writeByte ((storeLoop n s).ea n) ((storeLoop n s).reg (Fin.ofNat 16 n)) := rfl
    rw [h, ih]
    rfl

theorem storeLoop_reg (n : Nat) (s : State) (x : Reg) : (storeLoop n s).reg x = s.reg x := by
  rw [storeLoop_eq]; rfl

theorem storeLoop_ea (n : Nat) (s : State) (k : Nat) : (storeLoop n s).ea k = s.ea k := by
  rw [storeLoop_eq]; rfl

theorem storeLoop_succ (n : Nat) (s : State) :
    storeLoop (n + 1) s = (storeLoop n s).writeByte (s.ea n) (s.reg (Fin.ofNat 16 n)) := by
  have h : storeLoop (n + 1) s = (storeLoop n s).writeByte ((storeLoop n s).ea n) ((storeLoop n s).reg (Fin.ofNat 16 n)) := rfl
  rw [h, storeLoop_ea, storeLoop_reg]

/-- Register k is at I + k for each k stored. -/
theorem storeLoop_stored {n : Nat} (hn : n ≤ 16) (s : State) {k : Nat} (hk : k < n) :
    (storeLoop n s).readByte (s.ea k) = s.reg (Fin.ofNat 16 k) := by
  induction n with
  | zero => omega
  | succ n ih =>
    rw [storeLoop_succ, State.readByte_writeByte, State.ea_mod, State.ea_mod]
    by_cases h : k = n
    · simp [h]
    · have hne : ¬ s.ea k = s.ea n := fun e => h ((State.ea_inj s (by omega) (by omega)).mp e)
      rw [if_neg hne]
      exact ih (by omega) (by omega)

/-- Every other byte is as it was. -/
theorem storeLoop_outside {n : Nat} (s : State) {a : Nat} (ha : ∀ k, k < n → a % 4096 ≠ s.ea k) :
    (storeLoop n s).readByte a = s.readByte a := by
  induction n with
  | zero => rfl
  | succ n ih =>
    rw [storeLoop_succ, State.readByte_writeByte, State.ea_mod, if_neg (ha n (by omega))]
    exact ih fun k hk => ha k (by omega)

theorem storeLoop_font (n : Nat) (s : State) : (storeLoop n s).font = s.font := by
  rw [storeLoop_eq]

theorem storeLoop_wf {n : Nat} {s : State} (h : s.mem.wf s.font = true) : (storeLoop n s).mem.wf s.font = true := by
  induction n with
  | zero => exact h
  | succ n ih =>
    rw [storeLoop_succ, State.writeByte_mem, storeLoop_font]
    exact Memory.wf_write _ _ ih

/-- A load loop changes V registers alone. -/
theorem loadLoop_eq (n : Nat) (s : State) : loadLoop n s = { s with v := (loadLoop n s).v } := by
  induction n with
  | zero => rfl
  | succ n ih =>
    have h : loadLoop (n + 1) s = (loadLoop n s).setReg (Fin.ofNat 16 n) ((loadLoop n s).readByte ((loadLoop n s).ea n)) := rfl
    rw [h, ih]
    rfl

theorem loadLoop_succ (n : Nat) (s : State) :
    loadLoop (n + 1) s = (loadLoop n s).setReg (Fin.ofNat 16 n) (s.readByte (s.ea n)) := by
  have h : loadLoop (n + 1) s = (loadLoop n s).setReg (Fin.ofNat 16 n) ((loadLoop n s).readByte ((loadLoop n s).ea n)) := rfl
  rw [h, loadLoop_eq]
  rfl

/-- Register k holds the byte at I + k for each k loaded; the others are as they were. -/
theorem loadLoop_reg {n : Nat} (hn : n ≤ 16) (s : State) (k : Reg) :
    (loadLoop n s).reg k = if k.val < n then s.readByte (s.ea k.val) else s.reg k := by
  induction n with
  | zero => simp [loadLoop]
  | succ n ih =>
    rw [loadLoop_succ, State.reg_setReg, ih (by omega)]
    have hv : (Fin.ofNat 16 n).val = n := Nat.mod_eq_of_lt (by omega)
    by_cases h : k = Fin.ofNat 16 n
    · have hk : k.val = n := by rw [h, hv]
      rw [if_pos h, if_pos (by omega), hk]
    · have hk : k.val ≠ n := fun e => h (Fin.ext (by rw [hv, e]))
      rw [if_neg h]
      by_cases hlt : k.val < n
      · rw [if_pos hlt, if_pos (by omega)]
      · rw [if_neg hlt, if_neg (by omega)]

end Sys2Proof.Machine
end

