-- ==== Sys2Proof/Laws/Step.lean ====
section
/-! SUPPORT. What a step is for each turn and each MODE, said once (R6). -/

namespace Sys2Proof.Machine

theorem step_engine {s : State} {keys : BitVec 16} {rnd : Byte} (h : s.nextTurn = .engine keys rnd) :
    step s = (s.endTurn.present keys rnd).engineStep := by
  simp [step, h, State.takeTurn]

theorem step_tick {s : State} (h : s.nextTurn = .tick) : step s = .next s.endTurn.timerTick := by
  simp [step, h, State.takeTurn]

theorem step_load {s : State} {rom : List Byte} (h : s.nextTurn = .load rom) : step s = .next (s.endTurn.load rom) := by
  simp [step, h, State.takeTurn]

theorem step_reset {s : State} (h : s.nextTurn = .reset) : step s = .next s.endTurn.hostReset := by
  simp [step, h, State.takeTurn]

theorem engineStep_run {s : State} (h : s.mode = .run) : s.engineStep = s.fetchExec := by
  simp [State.engineStep, h]

theorem engineStep_waitKey {s : State} {x : Reg} (h : s.mode = .waitKey x) : s.engineStep = .next (s.pollKeys x) := by
  simp [State.engineStep, h]

theorem engineStep_halt {s : State} {c : Cause} (h : s.mode = .halt c) : s.engineStep = .next s := by
  simp [State.engineStep, h]

theorem fetchExec_some {s : State} {i : Instr} (h : decodeWord s.fetchWord = some i) : s.fetchExec = exec i s.advance := by
  simp [State.fetchExec, h]

theorem fetchExec_none {s : State} (h : decodeWord s.fetchWord = none) :
    s.fetchExec = .next (s.advance.emit (.unknownOpcode s.fetchWord s.pc)) := by
  simp [State.fetchExec, h]

/-- A load that fits re-initialises the core over the memory it builds. -/
theorem State.load_fits {s : State} {rom : List Byte} (h : rom.length ≤ 3584) :
    s.load rom = { s.reinit with mem := s.mem.loaded s.font rom, out := some .loadDone } := by
  simp [State.load, h]

/-- A load that does not fit only reports it. -/
theorem State.load_too_large {s : State} {rom : List Byte} (h : 3584 < rom.length) : s.load rom = s.emit .romTooLarge := by
  have : ¬ rom.length ≤ 3584 := by omega
  simp [State.load, this]

end Sys2Proof.Machine
end

