-- ==== Sys2Proof/Tests/Slice0.lean ====
section
/-! SUPPORT. Tests: ill-formed terms the checks refuse, words written out from the spec's encodings, vectors of
95_test_vectors.md (S<n>, T-<family>-<n>), and a witness for the hypotheses of each statement that has some. -/

namespace Sys2Proof.Tests

open Sys2Proof.Machine Sys2Proof.Claims

/-- The state after reset with some V registers given. -/
def regs (l : List (Reg × Byte)) : State := l.foldl (fun s p => s.setReg p.1 p.2) State.reset

/-- A state with bytes stored from an address on. -/
def poked (a : Nat) (l : List Byte) (s : State) : State :=
  (l.zipIdx a).foldl (fun s p => s.writeByte p.2 p.1) s

/-- Some next state satisfies the test. -/
def nextIs (r : Result) (p : State → Bool) : Bool :=
  match r with
  | .next t => p t
  | .fault _ | .refused _ => false

/-- The next step fetches and runs the word, and the state after satisfies the test. -/
def ran (w : Nat) (s : State) (p : State → Bool) : Bool := nextIs (step (s.withFetchWord 16 w)) p

/-- The next step takes the turn, and the state after satisfies the test. -/
def turned (turn : Turn) (s : State) (p : State → Bool) : Bool := nextIs (step { s with turns := [turn] }) p

/-! ## WellFormed refuses -/

theorem test_illFormed_jp : Instr.wellFormed (.jp 0x1000) = false := by decide
theorem test_illFormed_call : Instr.wellFormed (.call 0x1000) = false := by decide
theorem test_illFormed_ldI : Instr.wellFormed (.ldI 0x1000) = false := by decide
theorem test_illFormed_jpV0 : Instr.wellFormed (.jpV0 0x1000) = false := by decide
theorem test_illFormed_drw : Instr.wellFormed (.drw 0 0 16) = false := by decide

/-! ## Decoding: words written nibble by nibble from R96 -/

theorem test_decode_ret : decodeWord (0x0#4 ++ 0x0#4 ++ 0xE#4 ++ 0xE#4) = some (.ret) := by decide
theorem test_decode_jp : decodeWord (0x1#4 ++ 0x2#4 ++ 0x3#4 ++ 0x4#4) = some (.jp 0x234) := by decide
theorem test_decode_call : decodeWord (0x2#4 ++ 0xF#4 ++ 0xF#4 ++ 0xF#4) = some (.call 0xFFF) := by decide
theorem test_decode_jpV0 : decodeWord (0xB#4 ++ 0x3#4 ++ 0x0#4 ++ 0x0#4) = some (.jpV0 0x300) := by decide
theorem test_decode_seImm : decodeWord (0x3#4 ++ 0xF#4 ++ 0x0#4 ++ 0x1#4) = some (.seImm 15 0x01) := by decide
theorem test_decode_sneImm : decodeWord (0x4#4 ++ 0xA#4 ++ 0x1#4 ++ 0x0#4) = some (.sneImm 0xA 0x10) := by decide
theorem test_decode_seReg : decodeWord (0x5#4 ++ 0x1#4 ++ 0x2#4 ++ 0x0#4) = some (.seReg 1 2) := by decide
theorem test_decode_sneReg : decodeWord (0x9#4 ++ 0x1#4 ++ 0x2#4 ++ 0x0#4) = some (.sneReg 1 2) := by decide
theorem test_decode_ldImm : decodeWord (0x6#4 ++ 0x0#4 ++ 0x9#4 ++ 0xD#4) = some (.ldImm 0 0x9D) := by decide
theorem test_decode_addImm : decodeWord (0x7#4 ++ 0x0#4 ++ 0xF#4 ++ 0xF#4) = some (.addImm 0 0xFF) := by decide
theorem test_decode_ldReg : decodeWord (0x8#4 ++ 0x1#4 ++ 0x2#4 ++ 0x0#4) = some (.ldReg 1 2) := by decide
theorem test_decode_orReg : decodeWord (0x8#4 ++ 0x1#4 ++ 0x2#4 ++ 0x1#4) = some (.orReg 1 2) := by decide
theorem test_decode_andReg : decodeWord (0x8#4 ++ 0x1#4 ++ 0x2#4 ++ 0x2#4) = some (.andReg 1 2) := by decide
theorem test_decode_xorReg : decodeWord (0x8#4 ++ 0x1#4 ++ 0x2#4 ++ 0x3#4) = some (.xorReg 1 2) := by decide
theorem test_decode_addReg : decodeWord (0x8#4 ++ 0x1#4 ++ 0x2#4 ++ 0x4#4) = some (.addReg 1 2) := by decide
theorem test_decode_subReg : decodeWord (0x8#4 ++ 0x1#4 ++ 0x2#4 ++ 0x5#4) = some (.subReg 1 2) := by decide
theorem test_decode_shr : decodeWord (0x8#4 ++ 0xA#4 ++ 0xB#4 ++ 0x6#4) = some (.shr 0xA 0xB) := by decide
theorem test_decode_subnReg : decodeWord (0x8#4 ++ 0x1#4 ++ 0x2#4 ++ 0x7#4) = some (.subnReg 1 2) := by decide
theorem test_decode_shl : decodeWord (0x8#4 ++ 0x1#4 ++ 0x2#4 ++ 0xE#4) = some (.shl 1 2) := by decide
theorem test_decode_rnd : decodeWord (0xC#4 ++ 0x1#4 ++ 0x0#4 ++ 0xF#4) = some (.rnd 1 0x0F) := by decide
theorem test_decode_ldI : decodeWord (0xA#4 ++ 0x3#4 ++ 0x0#4 ++ 0x0#4) = some (.ldI 0x300) := by decide
theorem test_decode_addI : decodeWord (0xF#4 ++ 0x2#4 ++ 0x1#4 ++ 0xE#4) = some (.addI 2) := by decide
theorem test_decode_ldF : decodeWord (0xF#4 ++ 0x0#4 ++ 0x2#4 ++ 0x9#4) = some (.ldF 0) := by decide
theorem test_decode_ldB : decodeWord (0xF#4 ++ 0x0#4 ++ 0x3#4 ++ 0x3#4) = some (.ldB 0) := by decide
theorem test_decode_storeRegs : decodeWord (0xF#4 ++ 0x2#4 ++ 0x5#4 ++ 0x5#4) = some (.storeRegs 2) := by decide
theorem test_decode_loadRegs : decodeWord (0xF#4 ++ 0x2#4 ++ 0x6#4 ++ 0x5#4) = some (.loadRegs 2) := by decide
theorem test_decode_cls : decodeWord (0x0#4 ++ 0x0#4 ++ 0xE#4 ++ 0x0#4) = some (.cls) := by decide
theorem test_decode_drw : decodeWord (0xD#4 ++ 0x7#4 ++ 0xA#4 ++ 0x5#4) = some (.drw 7 0xA 5) := by decide
theorem test_decode_skp : decodeWord (0xE#4 ++ 0x1#4 ++ 0x9#4 ++ 0xE#4) = some (.skp 1) := by decide
theorem test_decode_sknp : decodeWord (0xE#4 ++ 0x1#4 ++ 0xA#4 ++ 0x1#4) = some (.sknp 1) := by decide
theorem test_decode_ldVxK : decodeWord (0xF#4 ++ 0x3#4 ++ 0x0#4 ++ 0xA#4) = some (.ldVxK 3) := by decide
theorem test_decode_ldVxDt : decodeWord (0xF#4 ++ 0x1#4 ++ 0x0#4 ++ 0x7#4) = some (.ldVxDt 1) := by decide
theorem test_decode_ldDtVx : decodeWord (0xF#4 ++ 0x0#4 ++ 0x1#4 ++ 0x5#4) = some (.ldDtVx 0) := by decide
theorem test_decode_ldStVx : decodeWord (0xF#4 ++ 0x2#4 ++ 0x1#4 ++ 0x8#4) = some (.ldStVx 2) := by decide

/-- T-DEC-4 to T-DEC-8: unrecognised words near the recognised ones. -/
theorem test_decode_unrecognised :
    [0x0123, 0x00E1, 0x01E0, 0x5121, 0x9ABF, 0x8128, 0x812F, 0xE19F, 0xE100, 0xF10B, 0xF175].map (decodeTableWord 16)
      = List.replicate 11 none := by decide

theorem test_decodeTableWord : decodeTableWord 16 0x00E0 = some .cls ∧ decodeTableWord 16 0x10E0 = some (.jp 0x0E0) := by decide

theorem test_decode_short : decode [0x12] = .error (.truncated [0x12]) := by decide

/-! ## Vectors -/

/-- T-FLOW-3, with the entry given by the vector. -/
theorem test_ret : ran 0x00EE { State.reset with pc := 0x20C, sp := 1, stk := State.reset.stk.set 0 0x0206 }
    (fun t => t.sp == 0 && t.pc == 0x206) = true := by decide

/-- T-FLOW-4 -/
theorem test_ret_empty : ran 0x00EE (State.reset) (fun t => t.mode == .halt .stackUnderflow && t.pc == 0x202 && t.sp == 0 && t.faultLine == some 1) = true := by decide

/-- T-FLOW-1 -/
theorem test_jp : ran 0x1204 ({ State.reset with pc := 0x20A }) (fun t => t.pc == 0x204) = true := by decide

/-- T-FLOW-5 -/
theorem test_call_wraps : ran 0x2300 ({ State.reset with pc := 0xFFE }) (fun t => t.stk[0]? == some 0x0000 && t.sp == 1 && t.pc == 0x300) = true := by decide

/-- T-FLOW-6, the 17th call; and on a machine of depth 1 the second (STACK_DEPTH is a parameter, D3). -/
theorem test_call_full : ran 0x2200 { State.reset with sp := 16 } (fun t => t.mode == .halt .stackOverflow && t.pc == 0x202 &&
      t.sp == 16 && t.faultLine == some 2) = true ∧
    ran 0x2300 (State.powerOn defaultFont 1) (fun t => t.mode == .run && t.sp == 1) = true ∧
    ran 0x2300 { State.powerOn defaultFont 1 with sp := 1 } (fun t => t.mode == .halt .stackOverflow) = true := by decide

/-- T-FLOW-8 -/
theorem test_jpV0_wraps : ran 0xBFFF (regs [(0, 0xFF)]) (fun t => t.pc == 0x0FE) = true := by decide

/-- T-DEC-16 -/
theorem test_jpV0_uses_V0 : ran 0xB2FF (regs [(0, 0x04), (2, 0x80)]) (fun t => t.pc == 0x303) = true := by decide

/-- T-SKIP-12 -/
theorem test_seImm_wraps : ran 0x3000 ({ State.reset with pc := 0xFFE }) (fun t => t.pc == 0x002) = true := by decide

/-- T-SKIP-2 -/
theorem test_seImm_no_skip : ran 0x3000 ({ regs [(0, 0x01)] with pc := 0x208 }) (fun t => t.pc == 0x20A) = true := by decide

/-- T-SKIP-3 -/
theorem test_sneImm : ran 0x4A10 ({ regs [(0xA, 0x11)] with pc := 0x300 }) (fun t => t.pc == 0x304) = true := by decide

/-- T-SKIP-6 -/
theorem test_seReg : ran 0x5120 (regs [(1, 0x7F), (2, 0x80)]) (fun t => t.pc == 0x202) = true := by decide

/-- T-SKIP-7 -/
theorem test_sneReg : ran 0x9120 (regs [(2, 0xFF)]) (fun t => t.pc == 0x204) = true := by decide

/-- T-ALU-1 -/
theorem test_ldImm : ran 0x609D (State.reset) (fun t => t.reg 0 == 0x9D && t.pc == 0x202) = true := by decide

/-- T-ALU-2 -/
theorem test_addImm_no_flag : ran 0x70FF (regs [(0, 0x05), (15, 0x01)]) (fun t => t.reg 0 == 0x04 && t.reg 15 == 0x01) = true := by decide

/-- T-ALU-4 -/
theorem test_ldReg : ran 0x8120 (regs [(2, 0x3C)]) (fun t => t.reg 1 == 0x3C) = true := by decide

/-- T-ALU-5 -/
theorem test_orReg : ran 0x8121 (regs [(1, 0xF0), (2, 0x0F), (15, 0x01)]) (fun t => t.reg 1 == 0xFF && t.reg 2 == 0x0F && t.reg 15 == 0x01) = true := by decide

/-- T-ALU-6 -/
theorem test_andReg : ran 0x8122 (regs [(1, 0xF3), (2, 0x3F), (15, 0x01)]) (fun t => t.reg 1 == 0x33 && t.reg 15 == 0x01) = true := by decide

/-- T-ALU-7 -/
theorem test_xorReg : ran 0x8123 (regs [(1, 0xFF), (2, 0x0F), (15, 0x01)]) (fun t => t.reg 1 == 0xF0 && t.reg 15 == 0x01) = true := by decide

/-- T-ALU-14 -/
theorem test_addReg_to_vf : ran 0x8F14 (regs [(15, 0xFF), (1, 0x01)]) (fun t => t.reg 15 == 0x00) = true := by decide

/-- T-ALU-12 -/
theorem test_addReg_no_carry : ran 0x8124 (regs [(1, 0x7F), (2, 0x80), (15, 0x01)]) (fun t => t.reg 1 == 0xFF && t.reg 15 == 0x00) = true := by decide

/-- S3 -/
theorem test_subReg_borrow : ran 0x8125 (regs [(1, 0x05), (2, 0x0A)]) (fun t => t.reg 1 == 0xFB && t.reg 15 == 0x00) = true := by decide

/-- T-ALU-19b -/
theorem test_subReg_of_vf : ran 0x80F5 (regs [(0, 0x0A), (15, 0x05)]) (fun t => t.reg 0 == 0x05 && t.reg 15 == 0x01) = true := by decide

/-- T-ALU-31 -/
theorem test_shr_ignores_y : ran 0x8126 (regs [(1, 0x06), (2, 0xFF)]) (fun t => t.reg 1 == 0x03 && t.reg 15 == 0x00) = true := by decide

/-- T-ALU-28 -/
theorem test_shr_logical : ran 0x8106 (regs [(1, 0xFF)]) (fun t => t.reg 1 == 0x7F && t.reg 15 == 0x01) = true := by decide

/-- T-ALU-22 -/
theorem test_subnReg : ran 0x8127 (regs [(1, 0x03), (2, 0x09)]) (fun t => t.reg 1 == 0x06 && t.reg 15 == 0x01) = true := by decide

/-- T-ALU-32 -/
theorem test_shl : ran 0x810E (regs [(1, 0x81)]) (fun t => t.reg 1 == 0x02 && t.reg 15 == 0x01) = true := by decide

/-- T-ALU-37 -/
theorem test_rnd : ran 0xC10F ({ State.reset with rnd := 0xA7 }) (fun t => t.reg 1 == 0x07) = true := by decide

/-- T-IDX-2 -/
theorem test_ldI : ran 0xAFFF (State.reset) (fun t => t.i == 0xFFF) = true := by decide

/-- T-IDX-5 -/
theorem test_addI_wraps : ran 0xF21E ({ regs [(2, 0xFF)] with i := 0xFFF }) (fun t => t.i == 0x0FE && t.reg 15 == 0) = true := by decide

/-- T-IDX-8 -/
theorem test_ldF_whole_byte : ran 0xF029 (regs [(0, 0xFF)]) (fun t => t.i == 0x4FB) = true := by decide

/-- T-IDX-10 -/
theorem test_ldB_wraps : ran 0xF033 ({ regs [(0, 0x9D)] with i := 0xFFE }) (fun t => t.readByte 0xFFE == 1 && t.readByte 0xFFF == 5 && t.readByte 0x000 == 7) = true := by decide

/-- T-IDX-11 -/
theorem test_storeRegs_inclusive : ran 0xF255 ({ regs [(0, 0x11), (1, 0x22), (2, 0x33), (3, 0x44)] with i := 0x300 }) (fun t => (List.range 4).map (fun k => t.readByte (0x300 + k)) == [0x11, 0x22, 0x33, 0x00] && t.i == 0x300) = true := by decide

/-- T-IDX-15 -/
theorem test_loadRegs_inclusive : ran 0xF265 (poked 0x300 [0x01, 0x05, 0x07, 0x09] { regs [(3, 0xEE)] with i := 0x300 }) (fun t => [t.reg 0, t.reg 1, t.reg 2, t.reg 3] == [0x01, 0x05, 0x07, 0xEE] && t.i == 0x300) = true := by decide

/-- T-IDX-17, the default FONT; and a machine with another FONT (R39). -/
theorem test_loadRegs_font :
    ran 0xF465 State.reset (fun t => [t.reg 0, t.reg 1, t.reg 2, t.reg 3, t.reg 4] == [0xF0, 0x90, 0x90, 0x90, 0xF0]) = true ∧
    ran 0xF165 (State.powerOn (Vector.replicate 80 0xA5) 16) (fun t => t.reg 0 == 0xA5 && t.reg 1 == 0xA5) = true := by decide

/-- T-DRW-1, one set pixel -/
theorem test_cls : ran 0x00E0 ({ regs [(15, 0x01)] with fb := setPixel clearedFb 31 63 true }) (fun t => !pixel t.fb 31 63 && t.reg 15 == 0x01) = true := by decide

/-- T-DRW-10 -/
theorem test_drw_wraps : ran 0xD012 (poked 0xFFF [0x80] { State.reset with i := 0xFFF }) (fun t => pixel t.fb 0 0 && pixel t.fb 1 3 && !pixel t.fb 1 4 && t.reg 15 == 0) = true := by decide

/-- T-DRW-7 -/
theorem test_drw_collides : ran 0xD011 (poked 0x300 [0xC0] { State.reset with i := 0x300, fb := setPixel clearedFb 0 0 true }) (fun t => !pixel t.fb 0 0 && pixel t.fb 0 1 && t.reg 15 == 0x01) = true := by decide

/-- T-KEY-5 -/
theorem test_skp_low_nibble : ran 0xE19E ({ regs [(1, 0x1A)] with keys := 0x0400 }) (fun t => t.pc == 0x204) = true := by decide

/-- T-KEY-3 -/
theorem test_sknp : ran 0xE1A1 ({ regs [(1, 0x05)] with pc := 0x220, keys := 0x0020 }) (fun t => t.pc == 0x222) = true := by decide

/-- T-KEY-6 -/
theorem test_ldVxK_lowest : ran 0xF30A ({ State.reset with pc := 0x230, keys := 0x0084 }) (fun t => t.reg 3 == 0x02 && t.pc == 0x232 && t.mode == .run) = true := by decide

/-- T-KEY-7 -/
theorem test_ldVxK_waits : ran 0xF30A ({ regs [(3, 0x55)] with pc := 0x230 }) (fun t => t.mode == .waitKey 3 && t.pc == 0x232 && t.reg 3 == 0x55) = true := by decide

/-- T-TMR-1 -/
theorem test_ldVxDt : ran 0xF107 ({ State.reset with dt := 0x2A }) (fun t => t.reg 1 == 0x2A && t.dt == 0x2A) = true := by decide

/-- T-TMR-2 -/
theorem test_ldDtVx : ran 0xF015 (regs [(0, 0x03)]) (fun t => t.dt == 3) = true := by decide

/-- T-TMR-4 -/
theorem test_ldStVx : ran 0xF218 ({ State.reset with st := 0x09 }) (fun t => t.st == 0 && !t.sound) = true := by decide

/-- T-DEC-14 -/
theorem test_unrecognised : ran 0x0000 ({ State.reset with pc := 0xFFE }) (fun t => t.pc == 0x000 && t.mode == .run && t.out == some (.unknownOpcode 0x0000 0xFFE)) = true := by decide

/-- T-DEC-12 with both bytes written -/
theorem test_fetch_wraps : ran 0x60F0 ({ State.reset with pc := 0xFFF }) (fun t => t.reg 0 == 0xF0 && t.pc == 0x001) = true := by decide

/-- T-KEY-8 -/
theorem test_wait_no_key : turned (.engine 0 0) ({ State.reset with mode := .waitKey 3, pc := 0x232 }) (fun t => t.mode == .waitKey 3 && t.pc == 0x232) = true := by decide

/-- T-KEY-9 -/
theorem test_wait_key_down : turned (.engine 0x8000 0) ({ State.reset with mode := .waitKey 3, pc := 0x232 }) (fun t => t.reg 3 == 0x0F && t.mode == .run && t.pc == 0x232) = true := by decide

/-- T-KEY-10 -/
theorem test_tick_waiting : turned (.tick) ({ State.reset with mode := .waitKey 3, dt := 2, st := 1 }) (fun t => t.dt == 1 && t.st == 0 && t.mode == .waitKey 3) = true := by decide

/-- T-TMR-7 -/
theorem test_tick_halted : turned (.tick) ({ State.reset with mode := .halt .stackUnderflow, dt := 1 }) (fun t => t.dt == 0 && t.mode == .halt .stackUnderflow) = true := by decide

/-- T-MEM-1 and T-MEM-10 -/
theorem test_load : turned (.load [0x60, 0x05, 0x12]) ({ State.reset with dt := 7, mode := .waitKey 2 }) (fun t => (List.range 4).map (fun k => t.readByte (0x200 + k)) == [0x60, 0x05, 0x12, 0x00] && t.readByte 0x04F == 0x80 &&
    t.dt == 0 && t.mode == .run && t.pc == 0x200 && t.out == some .loadDone) = true := by decide

/-- T-MEM-5 -/
theorem test_reset : turned (.reset) ({ State.reset with mode := .halt .stackOverflow, sp := 16 }) (fun t => t.mode == .run && t.sp == 0 && t.pc == 0x200) = true := by decide

/-! ## Witnesses: for each statement with hypotheses, a state and operands that meet them, clause by clause -/

/-- A state whose next turn is an instruction slot with the given lines. -/
def slot (keys : BitVec 16) (rnd : Byte) (s : State) : State := { s with turns := [.engine keys rnd] }

/-- RetPopsOrUnderflows: the lowest and the highest depth, and the empty stack. -/
theorem test_witness_ret : { State.reset with sp := 1 }.sp = 0 + 1 ∧ State.reset.stk[0]? = some 0 ∧
    { State.reset with sp := 16 }.sp = 15 + 1 ∧ State.reset.stk[15]? = some 0 ∧ State.reset.sp = 0 := by decide

/-- CallPushesOrOverflows: the first and the last free entry, another entry than those, the full stack, a stack of no entries. -/
theorem test_witness_call : State.reset.sp < State.reset.stackDepth ∧ { State.reset with sp := 15 }.sp < State.reset.stackDepth ∧
    14 ≠ { State.reset with sp := 15 }.sp ∧ State.reset.stackDepth ≤ { State.reset with sp := 16 }.sp ∧
    (State.powerOn defaultFont 0).stackDepth ≤ (State.powerOn defaultFont 0).sp := by decide

/-- SkipsOnImmediate, SkipsOnRegisters: equal and unequal values. -/
theorem test_witness_skips : State.reset.reg 0 = 0x00 ∧ State.reset.reg 0 ≠ 0xFF ∧
    State.reset.reg 0 = State.reset.reg 15 ∧ (regs [(15, 0x01)]).reg 0 ≠ (regs [(15, 0x01)]).reg 15 := by decide

/-- The flag clauses of AddRegistersWithCarry, SubtractionsWithNotBorrow and ShiftsByOneWithLostBit: X next to 15, sums on both
sides of the carry, operands on both sides of the borrow, another register for the frame. -/
theorem test_witness_flags : (14 : Reg) ≠ 15 ∧ (13 : Reg) ≠ 14 ∧ (13 : Reg) ≠ 15 ∧
    ((regs [(14, 0xFF), (1, 0x01)]).reg 14).toNat + ((regs [(14, 0xFF), (1, 0x01)]).reg 1).toNat > 0xFF ∧
    ¬ ((regs [(14, 0xFE), (1, 0x01)]).reg 14).toNat + ((regs [(14, 0xFE), (1, 0x01)]).reg 1).toNat > 0xFF ∧
    ((regs [(14, 0x05), (1, 0x05)]).reg 14).toNat ≥ ((regs [(14, 0x05), (1, 0x05)]).reg 1).toNat ∧
    ¬ ((regs [(14, 0x04), (1, 0x05)]).reg 14).toNat ≥ ((regs [(14, 0x04), (1, 0x05)]).reg 1).toNat := by decide

/-- The frame clause of LoadImmediate, AddImmediateWrapsWithoutFlag, CopyRegister, ReadDelayTimer and the like, and the bits of
LogicalOperationsBitByBit and RandomByteMasked. -/
theorem test_witness_registers : (15 : Reg) ≠ 0 ∧ (0 : Reg) ≠ 15 ∧ (0 : Nat) < 8 ∧ (7 : Nat) < 8 := by decide

/-- StoreDecimalDigits: the address after the last digit, I at the top of memory. -/
theorem test_witness_digits : 0x001 % 4096 ≠ { State.reset with i := 0xFFE }.ea 0 ∧
    0x001 % 4096 ≠ { State.reset with i := 0xFFE }.ea 1 ∧ 0x001 % 4096 ≠ { State.reset with i := 0xFFE }.ea 2 := by decide

/-- StoreRegistersInclusive, LoadRegistersInclusive: the first and the last register, the address after the last byte, a register
above X. -/
theorem test_witness_transfers : (0 : Reg) ≤ 0 ∧ (15 : Reg) ≤ 15 ∧ (14 : Reg) < 15 ∧
    (∀ k : Reg, k ≤ 15 → 0x00F % 4096 ≠ { State.reset with i := 0xFFF }.ea k.val) ∧
    (∀ k : Reg, k ≤ 0 → 0x000 % 4096 ≠ { State.reset with i := 0xFFF }.ea k.val) := by decide

/-- A sprite of one row whose leftmost bit is 1 sets the pixel at its corner. -/
theorem test_witness_sets : SpriteSets 0 0 [0x80] 0 0 := ⟨0, by decide, 0, by decide, by decide, by decide, by decide⟩

/-- The last bit of the last row of the tallest sprite, wrapped in both directions. -/
theorem test_witness_sets_wrapped : SpriteSets 63 31 (List.replicate 15 0xFF) 13 6 :=
  ⟨14, by decide, 7, by decide, by decide, by decide, by decide⟩

/-- It does not set the pixel to the right. -/
theorem test_witness_sets_not : ¬ SpriteSets 0 0 [0x80] 0 1 := by
  rintro ⟨r, hr, b, hb, hx, hy, hbit⟩
  obtain rfl : r = 0 := by simpa using hr
  obtain rfl : b = 1 := by simp at hx; omega
  exact absurd hbit (by decide)

/-- DrawSpriteXorsAndReportsCollision, DrawingTwiceRestores: a tallest sprite. -/
theorem test_witness_tallest : (List.replicate 15 (0xFF : Byte)).length ≤ 15 := by decide

/-- A collision, and none on a clear screen; and a pixel that is off under the sprite (DrawingTwiceRestores). -/
theorem test_witness_hits : SpriteHits (setPixel clearedFb 0 0 true) 0 0 [0x80] ∧ ¬ SpriteHits clearedFb 0 0 [0x80] ∧
    ∃ py px, SpriteSets 0 0 [0x80] py px ∧ pixel clearedFb py px = false :=
  ⟨⟨0, 0, test_witness_sets, by decide⟩, fun ⟨py, px, _, h⟩ => by
    have : pixel clearedFb py px = false := by simp [pixel, clearedFb]
    simp [this] at h, 0, 0, test_witness_sets, by decide⟩

/-- DrawSpriteFromMemory: the last row of the tallest sprite; a collision (the font's first byte on a set pixel) and none. -/
theorem test_witness_drw : 14 < (15#4).toNat ∧ State.reset.spriteRows 1 = [0xF0] ∧
    SpriteHits { State.reset with fb := setPixel clearedFb 0 0 true }.fb
      (State.reset.reg 0).toNat (State.reset.reg 1).toNat [0xF0] ∧
    ¬ SpriteHits State.reset.fb (State.reset.reg 0).toNat (State.reset.reg 1).toNat [0xF0] :=
  ⟨by decide, by decide, ⟨0, 0, ⟨0, by decide, 0, by decide, by decide, by decide, by decide⟩, by decide⟩,
    fun ⟨py, px, _, h⟩ => by
      have : pixel State.reset.fb py px = false := by simp [pixel, State.reset, State.powerOn]
      simp [this] at h⟩

/-- SkipsOnKey: key 15 down through a code above 0xF, and key 0 up. -/
theorem test_witness_keys : { regs [(1, 0x1F)] with keys := 0x8000 }.keys.getLsbD (((regs [(1, 0x1F)]).reg 1).toNat % 16) = true ∧
    { State.reset with keys := 0xFFFE }.keys.getLsbD ((State.reset.reg 1).toNat % 16) = false := by decide

/-- WaitForKeyTakesLowestOrWaits, WaitingSlotSamplesKeys: key 0 with all others, key 15 alone, none. -/
theorem test_witness_lowest : (0xFFFF#16).getLsbD (0 : Fin 16).val = true ∧
    (∀ j : Fin 16, j < 0 → (0xFFFF#16).getLsbD j.val = false) ∧ (0x8000#16).getLsbD (15 : Fin 16).val = true ∧
    (∀ j : Fin 16, j < 15 → (0x8000#16).getLsbD j.val = false) ∧ State.reset.keys = 0 := by decide

/-- TimerTickCountsBothDown: counts of one and of zero, each timer. -/
theorem test_witness_tick : { State.reset with dt := 1 }.dt.toNat > 0 ∧ State.reset.dt.toNat = 0 ∧
    { State.reset with st := 1 }.st.toNat > 0 ∧ State.reset.st.toNat = 0 := by decide

/-- DecodeOfEncode: the largest address and the tallest sprite. -/
theorem test_witness_wellFormed : Instr.wellFormed (.jp 0xFFF) = true ∧ Instr.wellFormed (.drw 15 15 15) = true := by decide

/-- EncodeOfDecode: a word that decodes. -/
theorem test_witness_decodes : decodeWord 0xDFFF = some (.drw 15 15 15) := by decide

/-- StepRunsTheDecodedInstruction: an instruction whose second byte is at address 0. -/
theorem test_witness_step : (slot 0x0001 0xA7 (poked 0xFFF [0x60] { State.reset with pc := 0xFFF })).nextTurn = .engine 0x0001 0xA7 ∧
    (slot 0x0001 0xA7 (poked 0xFFF [0x60] { State.reset with pc := 0xFFF })).mode = .run ∧
    decode [(poked 0xFFF [0x60] { State.reset with pc := 0xFFF }).readByte 0xFFF,
      (poked 0xFFF [0x60] { State.reset with pc := 0xFFF }).readByte (0xFFF + 1)] = .ok (.ldImm 0 0xF0, []) := by decide

/-- UnrecognisedWordOnlyAdvances: the zeros at 0x200. -/
theorem test_witness_unrecognised : (slot 0 0 State.reset).nextTurn = .engine 0 0 ∧ (slot 0 0 State.reset).mode = .run ∧
    decode [State.reset.readByte 0x200, State.reset.readByte (0x200 + 1)] = .error (.unknownOpcode 0x0000) := by decide

/-- WaitingSlotSamplesKeys: a waiting state with a slot. -/
theorem test_witness_waiting : (slot 0x8000 0 { State.reset with mode := .waitKey 15 }).nextTurn = .engine 0x8000 0 ∧
    (slot 0x8000 0 { State.reset with mode := .waitKey 15 }).mode = .waitKey 15 := by decide

/-- HaltedEngineDoesNothing: a halted state, its slot, and a step that leaves the mode. -/
theorem test_witness_halted : (slot 0 0 { State.reset with mode := .halt .stackOverflow }).mode = .halt .stackOverflow ∧
    (slot 0 0 { State.reset with mode := .halt .stackOverflow }).nextTurn = .engine 0 0 ∧
    turned .reset { State.reset with mode := .halt .stackOverflow } (fun t => t.mode != .halt .stackOverflow) = true := by decide

/-- TickStepsInEveryMode, HostResetReinitialises: the turns. -/
theorem test_witness_turns : { State.reset with turns := [.tick] }.nextTurn = .tick ∧
    { State.reset with turns := [.reset], mode := .waitKey 3 }.nextTurn = .reset := by decide

/-- LoadReinitialises, OversizedLoadRejected: the largest ROM, the first that is too large, the empty one. -/
theorem test_witness_load : { State.reset with turns := [.load (List.replicate 3584 0xAA)] }.nextTurn = .load (List.replicate 3584 0xAA) ∧
    (List.replicate 3584 (0xAA : Byte)).length ≤ 3584 ∧ 3584 < (List.replicate 3585 (0xAA : Byte)).length ∧
    { State.reset with turns := [.load (List.replicate 3585 0xAA)] }.nextTurn = .load (List.replicate 3585 0xAA) ∧
    ([] : List Byte).length ≤ 3584 :=
  ⟨rfl, by rw [List.length_replicate], by rw [List.length_replicate]; omega, rfl, by decide⟩

/-- StepKeepsInv, StepKeepsParameters: a state that meets the invariant and a step from it. -/
theorem test_witness_inv : Inv { State.reset with turns := [.tick] } ∧ ∃ t, step { State.reset with turns := [.tick] } = .next t :=
  ⟨⟨by decide, by decide, fun a ha => by simp [(List.mem_replicate.mp ha).2, Is12Bit], by decide, rfl⟩, _, rfl⟩

/-- OnlyRetAndCallFault: each fault. -/
theorem test_witness_faults :
    (∃ t, exec .ret State.reset = .next t ∧ State.reset.mode = .run ∧ t.mode = .halt .stackUnderflow) ∧
    (∃ t, exec (.call 0x300) { State.reset with sp := 16 } = .next t ∧ { State.reset with sp := 16 }.mode = .run ∧
      t.mode = .halt .stackOverflow) := ⟨⟨_, rfl, rfl, rfl⟩, ⟨_, rfl, rfl, rfl⟩⟩

/-- RegistersWrittenOnlyAsDestinations: a register above the last one loaded. -/
theorem test_witness_untouched : (∃ t, exec (.loadRegs 14) State.reset = .next t) ∧ writesReg (.loadRegs 14) 15 = false ∧
    (∃ t, exec (.addReg 1 2) State.reset = .next t) ∧ writesReg (.addReg 1 2) 2 = false :=
  ⟨⟨_, rfl⟩, by decide, ⟨_, rfl⟩, by decide⟩

/-- SpecialRegistersWrittenOnlyBy: instructions that change I, DT, ST. -/
theorem test_witness_specials : nextIs (exec (.ldI 0x300) State.reset) (fun t => t.i != State.reset.i) = true ∧
    nextIs (exec (.ldDtVx 0) (regs [(0, 5)])) (fun t => t.dt != (regs [(0, 5)]).dt) = true ∧
    nextIs (exec (.ldStVx 0) (regs [(0, 5)])) (fun t => t.st != (regs [(0, 5)]).st) = true := by decide

/-- StoragesWrittenOnlyBy: an instruction that changes a byte, one that changes a pixel. -/
theorem test_witness_storages :
    nextIs (exec (.storeRegs 0) { regs [(0, 5)] with i := 0x300 }) (fun t => t.readByte 0x300 != 0) = true ∧
    nextIs (exec .cls { State.reset with fb := setPixel clearedFb 0 0 true }) (fun t => !pixel t.fb 0 0) = true := by decide

/-- StackPcModeWrittenOnlyBy: an instruction that changes the stack and `pc`, one that changes MODE. -/
theorem test_witness_stack_mode : nextIs (exec (.call 0x300) State.reset) (fun t => t.sp != State.reset.sp && t.pc != State.reset.pc) = true ∧
    nextIs (exec (.ldVxK 3) State.reset) (fun t => t.mode != State.reset.mode) = true := by decide

/-- CallThenReturn: the first and the last entry, the largest `pc`. -/
theorem test_witness_callThenReturn : State.reset.sp < State.reset.stackDepth ∧ { State.reset with sp := 15 }.sp < State.reset.stackDepth ∧
    Is12Bit { State.reset with pc := 0xFFE }.pc ∧ ∃ t, exec (.call 0x300) { State.reset with pc := 0xFFE } = .next t :=
  ⟨by decide, by decide, by decide, _, rfl⟩

/-- StoreThenLoadRestores: every register. -/
theorem test_witness_storeThenLoad : (15 : Reg) ≤ 15 ∧ ∃ t, exec (.storeRegs 15) { State.reset with i := 0xFFF } = .next t :=
  ⟨by decide, _, rfl⟩

/-- StoreSeenByNextFetch: FX33 of 157 at I = 0xFFD with `pc` at each of its bytes and around them, and FX55 of V0 alone. -/
theorem test_witness_storeSeen :
    [0xFFB#16, 0xFFC, 0xFFD, 0xFFE, 0xFFF, 0x000].map (fun pc => wordAfter { State.reset with i := 0xFFD, pc := pc } [1, 5, 7])
      = [0x0000, 0x0001, 0x0105, 0x0507, 0x07F0, 0xF090] ∧
    [0x2FF#16, 0x300].map (fun pc => wordAfter { State.reset with i := 0x300, pc := pc } [0xAB]) = [0x00AB, 0xAB00] := by decide

/-- T-MEM-7, its last two steps: FX55 stores the next instruction, and the fetch after it reads the new word. -/
theorem test_store_then_fetch : ran 0xF155 { regs [(0, 0x12), (1, 0x0A)] with i := 0x208, pc := 0x206 }
    (fun t => t.fetchWord == 0x120A) = true := by decide

/-- SelfJumpIsFixpoint: the jump of T-FLOW-9. -/
theorem test_witness_finished : Finished (State.reset.withFetchWord 16 0x1200) = true ∧
    (State.reset.withFetchWord 16 0x1200).nextTurn = .engine 0 0 := by decide

/-- StaleStackEntriesUnobservable: an entry at SP differs, one below it does not. -/
theorem test_witness_stale : (State.reset.stk.set 1 0xFFFF).length = { State.reset with sp := 1 }.stackDepth ∧
    (State.reset.stk.set 1 0xFFFF)[0]? = State.reset.stk[0]? ∧ (State.reset.stk.set 1 0xFFFF)[1]? ≠ State.reset.stk[1]? := by decide

/-- ResetState at the boundaries of memory: the last font byte of the default FONT, the first and the last reserved byte, the first
and the last program byte; and the whole stack. -/
theorem test_witness_reset : State.reset.readByte 0x04F = 0x80 ∧ State.reset.readByte 0x050 = Config.memLowInit 0x050 ∧
    State.reset.readByte 0x1FF = Config.memLowInit 0x1FF ∧ State.reset.readByte 0x200 = 0 ∧ State.reset.readByte 0xFFF = 0 ∧
    State.reset.stk = [0, 0, 0, 0, 0, 0, 0, 0, 0, 0, 0, 0, 0, 0, 0, 0] :=
  ⟨by decide, by simp [State.readByte, State.reset, State.powerOn, Memory.read, Memory.lookup, initByte, Config.memSize, Config.fontEnd,
      Config.progBase],
    by simp [State.readByte, State.reset, State.powerOn, Memory.read, Memory.lookup, initByte, Config.memSize, Config.fontEnd,
      Config.progBase], by decide, by decide, by decide⟩

end Sys2Proof.Tests
end

/-! Proofs of the family 40_flow.md: control transfer. -/

namespace Sys2Proof.Proofs

open Sys2Proof Sys2Proof.Machine Sys2Proof.Claims

/-- Every 12-bit operand fits an address field (R94). -/
theorem isAddr_setWidth (nnn : BitVec 12) : Word.isAddr (nnn.setWidth 16) = true := by
  rw [Word.isAddr, BitVec.toNat_setWidth_of_le (by decide)]
  exact decide_eq_true nnn.isLt

/-- A primary opcode followed by a 12-bit operand is format NNN of that operand (R93). -/
theorem encodeNNN_setWidth (op : BitVec 4) (nnn : BitVec 12) : encodeNNN op (nnn.setWidth 16) = op ++ nnn := by
  simp [encodeNNN]

/-- The word of a well-formed instruction decodes to it, given the row of the map it fits (R91). -/
theorem decodeWord_of_encodingFits {i : Instr} (fits : Laws.EncodingFits.Statement i) (hi : i.wellFormed = true) :
    decodeWord (encode i) = some i := by
  obtain ⟨r, hr, hmask, hbuild⟩ := fits hi
  rw [decodeWord_of_match r hr hmask, hbuild]

/-- A write of `pc` changes `pc` alone (R24). -/
theorem onlyPc_setPc (s : State) (a : Word) : OnlyPc s (s.setPc a) :=
  ⟨rfl, State.readByte_congr (State.setPc_mem s a) (State.setPc_font s a)⟩

/-- The mask on `pc` keeps a 12-bit address (R24). -/
theorem low12_setWidth_toNat (nnn : BitVec 12) : (low12 (nnn.setWidth 16)).toNat = nnn.toNat := by
  rw [low12_toNat, BitVec.toNat_setWidth_of_le (by decide), Nat.mod_eq_of_lt nnn.isLt]

/-- Word 1NNN decodes to JP NNN (R96, R121). -/
theorem decodeWord_jp (nnn : BitVec 12) : decodeWord (0x1#4 ++ nnn) = some (.jp (nnn.setWidth 16)) := by
  rw [← encodeNNN_setWidth]
  exact decodeWord_of_encodingFits (Laws.EncodingFits.jp _) (isAddr_setWidth nnn)

/-- JP writes `pc` and does nothing else (R121). -/
theorem exec_jp (nnn : Word) (s : State) : exec (.jp nnn) s = .next (s.setPc nnn) := rfl

/-- Settles O2: 1NNN is the encoding of JP NNN, and JP is one write of `pc`, whose mask keeps the 12-bit NNN. -/
theorem jumpSetsPc : Obligations.JumpSetsPc := by
  intro nnn s
  exact ⟨decodeWord_jp nnn, s.setPc _, exec_jp _ s, low12_setWidth_toNat nnn, onlyPc_setPc s _⟩

end Sys2Proof.Proofs

/-! Proofs of the family 42_alu.md: register load and the logical operations. Each of these instructions is one write of V[X]. -/

namespace Sys2Proof.Proofs

open Sys2Proof Sys2Proof.Machine Sys2Proof.Claims

/-! ## One write of a V register -/

/-- The written register reads back as written (R21). -/
theorem reg_setReg_same (s : State) (x : Reg) (b : Byte) : (s.setReg x b).reg x = b := by
  rw [State.reg_setReg, if_pos rfl]

/-- A write of V[X] keeps the other V registers (R21). -/
theorem vKeptBut_setReg (s : State) (x : Reg) (b : Byte) : VKeptBut x s (s.setReg x b) := fun k hk => by
  rw [State.reg_setReg, if_neg hk]

/-- A write of V[X] changes the V registers alone (R21). -/
theorem onlyV_setReg (s : State) (x : Reg) (b : Byte) : OnlyV s (s.setReg x b) :=
  ⟨rfl, State.readByte_congr (State.setReg_mem s x b) (State.setReg_font s x b)⟩

/-! ## The words and the meanings -/

/-- Word 6XNN decodes to LD Vx, NN (R96, R141). -/
theorem decodeWord_ldImm (x : Reg) (nn : Byte) : decodeWord (0x6#4 ++ regNibble x ++ nn) = some (.ldImm x nn) :=
  decodeWord_of_encodingFits (Laws.EncodingFits.ldImm x nn) rfl

/-- Word 7XNN decodes to ADD Vx, NN (R96, R142). -/
theorem decodeWord_addImm (x : Reg) (nn : Byte) : decodeWord (0x7#4 ++ regNibble x ++ nn) = some (.addImm x nn) :=
  decodeWord_of_encodingFits (Laws.EncodingFits.addImm x nn) rfl

/-- Word 8XY0 decodes to LD Vx, Vy (R96, R143). -/
theorem decodeWord_ldReg (x y : Reg) :
    decodeWord (0x8#4 ++ regNibble x ++ regNibble y ++ 0x0#4) = some (.ldReg x y) :=
  decodeWord_of_encodingFits (Laws.EncodingFits.ldReg x y) rfl

/-- Word 8XY1 decodes to OR Vx, Vy (R96, R144). -/
theorem decodeWord_orReg (x y : Reg) :
    decodeWord (0x8#4 ++ regNibble x ++ regNibble y ++ 0x1#4) = some (.orReg x y) :=
  decodeWord_of_encodingFits (Laws.EncodingFits.orReg x y) rfl

/-- Word 8XY2 decodes to AND Vx, Vy (R96, R145). -/
theorem decodeWord_andReg (x y : Reg) :
    decodeWord (0x8#4 ++ regNibble x ++ regNibble y ++ 0x2#4) = some (.andReg x y) :=
  decodeWord_of_encodingFits (Laws.EncodingFits.andReg x y) rfl

/-- Word 8XY3 decodes to XOR Vx, Vy (R96, R146). -/
theorem decodeWord_xorReg (x y : Reg) :
    decodeWord (0x8#4 ++ regNibble x ++ regNibble y ++ 0x3#4) = some (.xorReg x y) :=
  decodeWord_of_encodingFits (Laws.EncodingFits.xorReg x y) rfl

theorem exec_ldImm (x : Reg) (nn : Byte) (s : State) : exec (.ldImm x nn) s = .next (s.setReg x nn) := rfl

theorem exec_addImm (x : Reg) (nn : Byte) (s : State) :
    exec (.addImm x nn) s = .next (s.setReg x (s.reg x + nn)) := rfl

theorem exec_ldReg (x y : Reg) (s : State) : exec (.ldReg x y) s = .next (s.setReg x (s.reg y)) := rfl

theorem exec_orReg (x y : Reg) (s : State) :
    exec (.orReg x y) s = .next (s.setReg x (s.reg x ||| s.reg y)) := rfl

theorem exec_andReg (x y : Reg) (s : State) :
    exec (.andReg x y) s = .next (s.setReg x (s.reg x &&& s.reg y)) := rfl

theorem exec_xorReg (x y : Reg) (s : State) :
    exec (.xorReg x y) s = .next (s.setReg x (s.reg x ^^^ s.reg y)) := rfl

/-! ## The statements -/

/-- Settles O7: 6XNN is the encoding of LD Vx, NN, and LD is one write of V[X]. -/
theorem loadImmediate : Obligations.LoadImmediate := by
  intro x nn s
  exact ⟨decodeWord_ldImm x nn, _, exec_ldImm x nn s, reg_setReg_same s x _, vKeptBut_setReg s x _, onlyV_setReg s x _⟩

/-- Settles O8: the written byte is the 8-bit sum, and no flag is written beside it. -/
theorem addImmediateWrapsWithoutFlag : Obligations.AddImmediateWrapsWithoutFlag := by
  intro x nn s
  refine ⟨decodeWord_addImm x nn, _, exec_addImm x nn s, ?_, vKeptBut_setReg s x _, onlyV_setReg s x _⟩
  rw [reg_setReg_same, BitVec.toNat_add]

/-- Settles O9: the written byte is V[Y], X = Y included. -/
theorem copyRegister : Obligations.CopyRegister := by
  intro x y s
  exact ⟨decodeWord_ldReg x y, _, exec_ldReg x y s, reg_setReg_same s x _, vKeptBut_setReg s x _, onlyV_setReg s x _⟩

/-- Settles O10: each of the three is one write of V[X], and the written byte has the stated bits. -/
theorem logicalOperationsBitByBit : Obligations.LogicalOperationsBitByBit := by
  intro x y s
  refine ⟨decodeWord_orReg x y, decodeWord_andReg x y, decodeWord_xorReg x y, _, _, _,
    exec_orReg x y s, exec_andReg x y s, exec_xorReg x y s, fun b _ => ⟨?_, ?_, ?_⟩,
    vKeptBut_setReg s x _, vKeptBut_setReg s x _, vKeptBut_setReg s x _,
    onlyV_setReg s x _, onlyV_setReg s x _, onlyV_setReg s x _⟩
  · rw [reg_setReg_same, BitVec.getLsbD_or]
  · rw [reg_setReg_same, BitVec.getLsbD_and]
  · rw [reg_setReg_same, BitVec.getLsbD_xor]

end Sys2Proof.Proofs

/-! Proofs of the family 43_index_memory.md: the index register. Each of these instructions is one write of I. -/

namespace Sys2Proof.Proofs

open Sys2Proof Sys2Proof.Machine Sys2Proof.Claims

/-! ## One write of the index register -/

/-- A write of I changes I alone (R30). -/
theorem onlyI_setI (s : State) (a : Word) : OnlyI s (s.setI a) :=
  ⟨rfl, State.readByte_congr (State.setI_mem s a) (State.setI_font s a)⟩

/-- The 16-bit carry is a multiple of 4096, so the mask leaves the sum of the unsigned values modulo 4096 (R9). -/
theorem low12_add_toNat (a b : Word) : (low12 (a + b)).toNat = (a.toNat + b.toNat) % 4096 := by
  rw [low12_toNat, BitVec.toNat_add]
  exact Nat.mod_mod_of_dvd _ (by decide)

/-- Five bytes a glyph: the product of a whole byte is below 2^16 (R162). -/
theorem glyphAddr_toNat (b : Byte) : (glyphAddr b).toNat = b.toNat * 5 := by
  have bound : b.toNat * 5 < 65536 := by have := b.isLt; omega
  rw [glyphAddr, BitVec.toNat_mul, zext_toNat]
  exact Nat.mod_eq_of_lt bound

/-- The mask on I keeps the address of a glyph, which is at most 255 * 5 (R30, R162). -/
theorem low12_glyphAddr (b : Byte) : low12 (glyphAddr b) = glyphAddr b :=
  low12_of_lt (by rw [glyphAddr_toNat]; have := b.isLt; omega)

/-! ## The words and the meanings -/

/-- Word ANNN decodes to LD I, NNN (R96, R160). -/
theorem decodeWord_ldI (nnn : BitVec 12) : decodeWord (0xA#4 ++ nnn) = some (.ldI (nnn.setWidth 16)) := by
  rw [← encodeNNN_setWidth]
  exact decodeWord_of_encodingFits (Laws.EncodingFits.ldI _) (isAddr_setWidth nnn)

/-- Word FX1E decodes to ADD I, Vx (R96, R161). -/
theorem decodeWord_addI (x : Reg) : decodeWord (0xF#4 ++ regNibble x ++ 0x1E#8) = some (.addI x) :=
  decodeWord_of_encodingFits (Laws.EncodingFits.addI x) rfl

/-- Word FX29 decodes to LD F, Vx (R96, R162). -/
theorem decodeWord_ldF (x : Reg) : decodeWord (0xF#4 ++ regNibble x ++ 0x29#8) = some (.ldF x) :=
  decodeWord_of_encodingFits (Laws.EncodingFits.ldF x) rfl

theorem exec_ldI (nnn : Word) (s : State) : exec (.ldI nnn) s = .next (s.setI nnn) := rfl

theorem exec_addI (x : Reg) (s : State) : exec (.addI x) s = .next (s.setI (s.i + zext (s.reg x))) := rfl

theorem exec_ldF (x : Reg) (s : State) : exec (.ldF x) s = .next (s.setI (glyphAddr (s.reg x))) := rfl

/-! ## The statements -/

/-- Settles O15: ANNN is the encoding of LD I, NNN, and LD is one write of I, whose mask keeps the 12-bit NNN. -/
theorem loadIndex : Obligations.LoadIndex := by
  intro nnn s
  exact ⟨decodeWord_ldI nnn, _, exec_ldI _ s, low12_setWidth_toNat nnn, onlyI_setI s _⟩

/-- Settles O16: the one write is of I, and the masked 16-bit sum is the sum modulo 4096; no V register is written. -/
theorem addToIndexWrapsAt12Bits : Obligations.AddToIndexWrapsAt12Bits := by
  intro x s
  refine ⟨decodeWord_addI x, _, exec_addI x s, ?_, onlyI_setI s _⟩
  rw [State.setI_i, low12_add_toNat, zext_toNat]

/-- Settles O17: the one write is of I, and neither the product nor the mask on I wraps. -/
theorem pointIndexAtGlyph : Obligations.PointIndexAtGlyph := by
  intro x s
  refine ⟨decodeWord_ldF x, _, exec_ldF x s, ?_, onlyI_setI s _⟩
  rw [State.setI_i, low12_glyphAddr, glyphAddr_toNat]

end Sys2Proof.Proofs

/-! Proofs of the family 44_display.md: the clear and the loop over a sprite's rows. -/

namespace Sys2Proof.Proofs

open Sys2Proof Sys2Proof.Machine Sys2Proof.Claims

/-! ## The 1 bits of a sprite, row by row -/

/-- A sprite without rows has no 1 bit. -/
theorem not_spriteSets_nil (x y : Nat) (v : Fin 32) (u : Fin 64) : ¬ SpriteSets x y [] v u :=
  fun ⟨r, hr, _⟩ => Nat.not_lt_zero r hr

/-- A 1 bit of a sprite is one of its top row or one of the rows below, which start a line further down (R170). -/
theorem spriteSets_cons (x y : Nat) (row : Byte) (rows : List Byte) (v : Fin 32) (u : Fin 64) :
    SpriteSets x y (row :: rows) v u ↔ RowSets x y row 8 v u ∨ SpriteSets x (y + 1) rows v u := by
  have line (r : Nat) : y + 1 + r = y + (r + 1) := by omega
  constructor
  · rintro ⟨_ | r, hr, b, hb, hx, hy, hbit⟩
    · exact .inl ⟨b, hb, hx, hy, hbit⟩
    · exact .inr ⟨r, Nat.lt_of_succ_lt_succ hr, b, hb, hx, by rwa [line], hbit⟩
  · rintro (⟨b, hb, hx, hy, hbit⟩ | ⟨r, hr, b, hb, hx, hy, hbit⟩)
    · exact ⟨0, Nat.succ_pos _, b, hb, hx, hy, hbit⟩
    · exact ⟨r + 1, Nat.succ_lt_succ hr, b, hb, hx, by rwa [← line], hbit⟩

/-- The hits of a sprite are those of its top row and those of the rows below. -/
theorem spriteHits_cons (f : Framebuffer) (x y : Nat) (row : Byte) (rows : List Byte) :
    SpriteHits f x y (row :: rows) ↔
      (∃ v u, RowSets x y row 8 v u ∧ pixel f v u = true) ∨ SpriteHits f x (y + 1) rows := by
  simp only [SpriteHits, spriteSets_cons, or_and_right, exists_or]

/-- At most 32 rows fall on different lines, so a pixel under the top row is under no row below (R170). -/
theorem not_spriteSets_of_rowSets {x y : Nat} {row : Byte} {rows : List Byte} {v : Fin 32} {u : Fin 64}
    (hlen : rows.length < 32) (hrow : RowSets x y row 8 v u) : ¬ SpriteSets x (y + 1) rows v u := by
  rintro ⟨r, hr, _, _, _, hline, _⟩
  obtain ⟨_, _, _, htop, _⟩ := hrow
  omega

/-! ## The loop over the rows -/

/-- The rows invert the pixels their 1 bits fall on and no other. -/
theorem drawRows_fst {rows : List Byte} (hlen : rows.length ≤ 32) (x y : Nat) (acc : Framebuffer × Bool)
    (v : Fin 32) (u : Fin 64) :
    (SpriteSets x y rows v u → pixel (drawRows x y rows acc).1 v u = !pixel acc.1 v u) ∧
    (¬ SpriteSets x y rows v u → pixel (drawRows x y rows acc).1 v u = pixel acc.1 v u) := by
  induction rows generalizing y acc with
  | nil => exact ⟨fun h => absurd h (not_spriteSets_nil x y v u), fun _ => rfl⟩
  | cons row rows ih =>
    obtain ⟨topSet, topKept⟩ := drawRow_fst (Nat.le_refl 8) x y row acc v u
    obtain ⟨belowSet, belowKept⟩ := ih (Nat.le_of_succ_le hlen) (y + 1) (drawRow x y row 8 acc)
    rw [drawRows_cons, spriteSets_cons]
    by_cases hrow : RowSets x y row 8 v u
    · rw [belowKept (not_spriteSets_of_rowSets hlen hrow), topSet hrow]
      exact ⟨fun _ => rfl, fun h => absurd (.inl hrow) h⟩
    · rw [topKept hrow] at belowSet belowKept
      exact ⟨fun h => belowSet (h.resolve_left hrow), fun h => belowKept fun hs => h (.inr hs)⟩

/-- Drawing the top row moves no hit of the rows below: they fall on other lines. -/
theorem spriteHits_drawRow {rows : List Byte} (hlen : rows.length < 32) (x y : Nat) (row : Byte)
    (acc : Framebuffer × Bool) :
    SpriteHits (drawRow x y row 8 acc).1 x (y + 1) rows ↔ SpriteHits acc.1 x (y + 1) rows := by
  refine exists_congr fun v => exists_congr fun u => and_congr_right fun hs => ?_
  have hno : ¬ RowSets x y row 8 v u := fun hrow => not_spriteSets_of_rowSets hlen hrow hs
  rw [(drawRow_fst (Nat.le_refl 8) x y row acc v u).2 hno]

/-- The rows add a collision exactly when one of their 1 bits falls on a set pixel. -/
theorem drawRows_snd {rows : List Byte} (hlen : rows.length ≤ 32) (x y : Nat) (acc : Framebuffer × Bool) :
    (drawRows x y rows acc).2 = true ↔ acc.2 = true ∨ SpriteHits acc.1 x y rows := by
  induction rows generalizing y acc with
  | nil => exact ⟨.inl, fun h => h.resolve_right fun ⟨v, u, hs, _⟩ => not_spriteSets_nil x y v u hs⟩
  | cons row rows ih =>
    rw [drawRows_cons, ih (Nat.le_of_succ_le hlen), drawRow_snd (Nat.le_refl 8), spriteHits_drawRow hlen,
      spriteHits_cons, or_assoc]

/-! ## The clear -/

/-- Word 00E0 decodes to CLS (R96, R172). -/
theorem decodeWord_cls : decodeWord 0x00E0#16 = some .cls :=
  decodeWord_of_encodingFits Laws.EncodingFits.cls rfl

theorem exec_cls (s : State) : exec .cls s = .next (s.setFb clearedFb) := rfl

/-- A write of the framebuffer keeps memory (R38). -/
theorem memoryKept_setFb (s : State) (f : Framebuffer) : MemoryKept s (s.setFb f) :=
  State.readByte_congr (State.setFb_mem s f) (State.setFb_font s f)

/-! ## The statements -/

/-- Settles O22: DrawSprite is the loop over the rows from no collision, and 15 rows fall on 15 different lines. -/
theorem drawSpriteXorsAndReportsCollision : Obligations.DrawSpriteXorsAndReportsCollision := by
  intro f x y rows hlen
  have hlines : rows.length ≤ 32 := Nat.le_trans hlen (by decide)
  refine ⟨drawRows_fst hlines x y (f, false), (drawRows_snd hlines x y (f, false)).trans ?_⟩
  exact or_iff_right Bool.false_ne_true

/-- Settles O21: CLS is one write of the framebuffer, with every pixel off. -/
theorem clearScreen : Obligations.ClearScreen := by
  intro s
  exact ⟨decodeWord_cls, _, exec_cls s, pixel_clearedFb, rfl, memoryKept_setFb s _⟩

end Sys2Proof.Proofs

/-! Proofs of the family 60_exceptions.md: the timer unit. -/

namespace Sys2Proof.Proofs

open Sys2Proof Sys2Proof.Machine Sys2Proof.Claims

/-- A timer above zero loses one (R216). -/
theorem countDown_toNat_add_one {b : Byte} (h : b.toNat > 0) : (countDown b).toNat + 1 = b.toNat := by
  rw [countDown_toNat, Nat.sub_add_cancel h]

/-- A timer at zero stays there (R216). -/
theorem countDown_toNat_eq_zero {b : Byte} (h : b.toNat = 0) : (countDown b).toNat = 0 := by
  rw [countDown_toNat, h]

/-- The tick writes the two timers alone, so memory reads as before (R216). -/
theorem memoryKept_timerTick (s : State) : MemoryKept s s.timerTick :=
  State.readByte_congr (State.timerTick_mem s) (State.timerTick_font s)

/-- Settles O30: the tick is one count-down of each timer on its own value, and one write of each. -/
theorem timerTickCountsBothDown : Obligations.TimerTickCountsBothDown := by
  intro s
  rw [State.timerTick_dt, State.timerTick_st]
  exact ⟨countDown_toNat_add_one, countDown_toNat_eq_zero, countDown_toNat_add_one, countDown_toNat_eq_zero, rfl,
    memoryKept_timerTick s⟩

end Sys2Proof.Proofs

/-! Proofs of the family other: decoding and encoding. -/

namespace Sys2Proof.Proofs

open Sys2Proof Sys2Proof.Machine Sys2Proof.Claims

/-! ## From an instruction to its bytes and back -/

/-- Every instruction's word selects a row of the map that builds the instruction back (R96). -/
theorem encodingFits : ∀ i : Instr, Laws.EncodingFits.Statement i
  | .cls => Laws.EncodingFits.cls
  | .ret => Laws.EncodingFits.ret
  | .jp nnn => Laws.EncodingFits.jp nnn
  | .call nnn => Laws.EncodingFits.call nnn
  | .seImm x nn => Laws.EncodingFits.seImm x nn
  | .sneImm x nn => Laws.EncodingFits.sneImm x nn
  | .seReg x y => Laws.EncodingFits.seReg x y
  | .ldImm x nn => Laws.EncodingFits.ldImm x nn
  | .addImm x nn => Laws.EncodingFits.addImm x nn
  | .ldReg x y => Laws.EncodingFits.ldReg x y
  | .orReg x y => Laws.EncodingFits.orReg x y
  | .andReg x y => Laws.EncodingFits.andReg x y
  | .xorReg x y => Laws.EncodingFits.xorReg x y
  | .addReg x y => Laws.EncodingFits.addReg x y
  | .subReg x y => Laws.EncodingFits.subReg x y
  | .shr x y => Laws.EncodingFits.shr x y
  | .subnReg x y => Laws.EncodingFits.subnReg x y
  | .shl x y => Laws.EncodingFits.shl x y
  | .sneReg x y => Laws.EncodingFits.sneReg x y
  | .ldI nnn => Laws.EncodingFits.ldI nnn
  | .jpV0 nnn => Laws.EncodingFits.jpV0 nnn
  | .rnd x nn => Laws.EncodingFits.rnd x nn
  | .drw x y n => Laws.EncodingFits.drw x y n
  | .skp x => Laws.EncodingFits.skp x
  | .sknp x => Laws.EncodingFits.sknp x
  | .ldVxDt x => Laws.EncodingFits.ldVxDt x
  | .ldVxK x => Laws.EncodingFits.ldVxK x
  | .ldDtVx x => Laws.EncodingFits.ldDtVx x
  | .ldStVx x => Laws.EncodingFits.ldStVx x
  | .addI x => Laws.EncodingFits.addI x
  | .ldF x => Laws.EncodingFits.ldF x
  | .ldB x => Laws.EncodingFits.ldB x
  | .storeRegs x => Laws.EncodingFits.storeRegs x
  | .loadRegs x => Laws.EncodingFits.loadRegs x

/-- The word of a well-formed instruction decodes to it (R91). -/
theorem decodeWord_encode {i : Instr} (hi : i.wellFormed = true) : decodeWord (encode i) = some i :=
  decodeWord_of_encodingFits (encodingFits i) hi

/-- A word is its two bytes, the high one first (R61). -/
theorem wordOfBytes_high_low (w : Word) : wordOfBytes (highByte w) (lowByte w) = w :=
  BitVec.extractLsb'_append_extractLsb' (w := 8) (len := 8)

/-- Two bytes whose word decodes are an instruction, and the bytes behind them are handed back (R91). -/
theorem decode_of_decodeWord {hi lo : Byte} {i : Instr} (h : decodeWord (wordOfBytes hi lo) = some i)
    (rest : List Byte) : decode (hi :: lo :: rest) = .ok (i, rest) := by
  simp only [decode, h]

/-- Two bytes whose word does not decode are rejected with that word (R99). -/
theorem decode_of_decodeWord_none {hi lo : Byte} (h : decodeWord (wordOfBytes hi lo) = none) (rest : List Byte) :
    decode (hi :: lo :: rest) = .error (.unknownOpcode (wordOfBytes hi lo)) := by
  simp only [decode, h]

/-- Settles O32: the two bytes are the word again, and the word selects a row that builds the instruction back. -/
theorem decodeOfEncode : Obligations.DecodeOfEncode := by
  intro i rest hi
  refine decode_of_decodeWord ?_ rest
  rw [wordOfBytes_high_low, decodeWord_encode hi]


/-- Settles O31: each pair of bytes reads as its row of R96 says, or as no row's. -/
theorem sampleWordsDecode : Obligations.SampleWordsDecode :=
  ⟨rfl, rfl, rfl, rfl, rfl, rfl, rfl, rfl, rfl, rfl⟩

/-! ## The fields of a word

The formats of R93 cut a word into the primary opcode and the fields, which put together again are the word. -/

/-- The primary opcode, bits 15 to 12 (R91). -/
def opNibble (w : Word) : BitVec 4 := w.extractLsb' 12 4

/-- The secondary opcode of the formats XY and XYN, bits 3 to 0 (R93). -/
def lastNibble (w : Word) : BitVec 4 := w.extractLsb' 0 4

theorem encodeNNN_self (w : Word) : encodeNNN (opNibble w) w = w := by
  have low : w.setWidth 12 = w.extractLsb' 0 12 := BitVec.setWidth_eq_extractLsb' (by decide)
  rw [encodeNNN, opNibble, low]
  exact BitVec.extractLsb'_append_extractLsb' (w := 4) (len := 12)

theorem encodeXNN_self (w : Word) : encodeXNN (opNibble w) (fieldX w) (fieldNN w) = w := by
  have high : opNibble w ++ regNibble (fieldX w) = w.extractLsb' 8 8 :=
    BitVec.extractLsb'_append_extractLsb'_eq_extractLsb' rfl
  rw [encodeXNN, high]
  exact wordOfBytes_high_low w

theorem encodeXYN_self (w : Word) : encodeXYN (opNibble w) (fieldX w) (fieldY w) (lastNibble w) = w := by
  have high : opNibble w ++ regNibble (fieldX w) = w.extractLsb' 8 8 :=
    BitVec.extractLsb'_append_extractLsb'_eq_extractLsb' rfl
  have upper : w.extractLsb' 8 8 ++ regNibble (fieldY w) = w.extractLsb' 4 12 :=
    BitVec.extractLsb'_append_extractLsb'_eq_extractLsb' rfl
  rw [encodeXYN, high, upper]
  exact BitVec.extractLsb'_append_extractLsb' (w := 12) (len := 4)

/-- Two words put together of parts of the same widths are equal when their parts are. -/
theorem append_inj_iff {m n : Nat} {a a' : BitVec m} {b b' : BitVec n} : a ++ b = a' ++ b' ↔ a = a' ∧ b = b' := by
  refine ⟨fun h => ⟨?_, ?_⟩, fun ⟨ha, hb⟩ => ha ▸ hb ▸ rfl⟩
  · simpa only [BitVec.extractLsb'_append_eq_left] using congrArg (·.extractLsb' n m) h
  · simpa only [BitVec.extractLsb'_append_eq_right] using congrArg (·.extractLsb' 0 n) h

/-! ## What each mask of the map looks at -/

theorem and_mask_op (w : Word) : w &&& 0xF000#16 = opNibble w ++ 0#12 := by
  have h := encodeNNN_mask (opNibble w) w
  rwa [encodeNNN_self] at h

theorem and_mask_xy (w : Word) : w &&& 0xF00F#16 = opNibble w ++ 0#4 ++ 0#4 ++ lastNibble w := by
  have h := encodeXY_mask (opNibble w) (fieldX w) (fieldY w) (lastNibble w)
  rwa [encodeXYN_self] at h

theorem and_mask_xb (w : Word) : w &&& 0xF0FF#16 = opNibble w ++ 0#4 ++ fieldNN w := by
  have h := encodeXB_mask (opNibble w) (fieldX w) (fieldNN w)
  rwa [encodeXB_eq, encodeXNN_self] at h

/-- A row of format NNN, XNN or XYN fixes the primary opcode (R96). -/
theorem matches_op (w : Word) {p : Word} (hp : p &&& 0xF000#16 = p) :
    w &&& 0xF000#16 = p ↔ opNibble w = opNibble p := by
  conv_lhs => rw [← hp, and_mask_op, and_mask_op]
  exact BitVec.append_left_inj 0#12

/-- A row of format XY fixes the primary opcode and the last nibble (R96). -/
theorem matches_xy (w : Word) {p : Word} (hp : p &&& 0xF00F#16 = p) :
    w &&& 0xF00F#16 = p ↔ opNibble w = opNibble p ∧ lastNibble w = lastNibble p := by
  conv_lhs => rw [← hp, and_mask_xy, and_mask_xy]
  rw [append_inj_iff, BitVec.append_left_inj, BitVec.append_left_inj]

/-- A row of format XB fixes the primary opcode and the low byte (R96). -/
theorem matches_xb (w : Word) {p : Word} (hp : p &&& 0xF0FF#16 = p) :
    w &&& 0xF0FF#16 = p ↔ opNibble w = opNibble p ∧ fieldNN w = fieldNN p := by
  conv_lhs => rw [← hp, and_mask_xb, and_mask_xb]
  rw [append_inj_iff, BitVec.append_left_inj]

/-! ## From a word to its instruction and back -/

/-- A row drops no bit: what it builds of a word it matches is well-formed and encodes to that word (R93, R94). -/
def RowKeepsWord (r : OpRow) : Prop :=
  ∀ w, w &&& r.mask = r.pat → (r.build w).wellFormed = true ∧ encode (r.build w) = w

theorem isAddr_fieldNNN (w : Word) : Word.isAddr (fieldNNN w) = true := by
  rw [Word.isAddr, fieldNNN_toNat]
  exact decide_eq_true (Nat.mod_lt _ (by decide))

/-- The address field is all that format NNN takes of its operand (R93). -/
theorem encodeNNN_fieldNNN (op : BitVec 4) (w : Word) : encodeNNN op (fieldNNN w) = encodeNNN op w := by
  have low : (fieldNNN w).setWidth 12 = w.setWidth 12 :=
    BitVec.eq_of_toNat_eq (by simp [BitVec.toNat_setWidth, fieldNNN_toNat])
  rw [encodeNNN, encodeNNN, low]

theorem rowKeepsWord_nnn (op : BitVec 4) (mk : Word → Instr)
    (hwf : ∀ a, (mk a).wellFormed = Word.isAddr a := by intros; rfl)
    (henc : ∀ a, encode (mk a) = encodeNNN op a := by intros; rfl) :
    RowKeepsWord ⟨0xF000#16, op ++ 0#12, fun w => mk (fieldNNN w)⟩ := by
  intro w hmatch
  have hop : opNibble w = op := (BitVec.append_left_inj _).mp ((and_mask_op w).symm.trans hmatch)
  rw [hwf, henc, encodeNNN_fieldNNN, ← hop]
  exact ⟨isAddr_fieldNNN w, encodeNNN_self w⟩

theorem rowKeepsWord_xnn (op : BitVec 4) (mk : Reg → Byte → Instr)
    (hwf : ∀ x nn, (mk x nn).wellFormed = true := by intros; rfl)
    (henc : ∀ x nn, encode (mk x nn) = encodeXNN op x nn := by intros; rfl) :
    RowKeepsWord ⟨0xF000#16, op ++ 0#12, fun w => mk (fieldX w) (fieldNN w)⟩ := by
  intro w hmatch
  have hop : opNibble w = op := (BitVec.append_left_inj _).mp ((and_mask_op w).symm.trans hmatch)
  exact ⟨hwf _ _, by rw [henc, ← hop, encodeXNN_self]⟩

theorem rowKeepsWord_xy (op last : BitVec 4) (mk : Reg → Reg → Instr)
    (hwf : ∀ x y, (mk x y).wellFormed = true := by intros; rfl)
    (henc : ∀ x y, encode (mk x y) = encodeXYN op x y last := by intros; rfl) :
    RowKeepsWord ⟨0xF00F#16, op ++ 0#4 ++ 0#4 ++ last, fun w => mk (fieldX w) (fieldY w)⟩ := by
  intro w hmatch
  obtain ⟨hhigh, hlast⟩ := append_inj_iff.mp ((and_mask_xy w).symm.trans hmatch)
  have hop : opNibble w = op := by simpa only [BitVec.append_left_inj] using hhigh
  exact ⟨hwf _ _, by rw [henc, ← hop, ← hlast, encodeXYN_self]⟩

theorem rowKeepsWord_xb (op : BitVec 4) (last : Byte) (mk : Reg → Instr)
    (hwf : ∀ x, (mk x).wellFormed = true := by intros; rfl)
    (henc : ∀ x, encode (mk x) = encodeXB op x last := by intros; rfl) :
    RowKeepsWord ⟨0xF0FF#16, op ++ 0#4 ++ last, fun w => mk (fieldX w)⟩ := by
  intro w hmatch
  obtain ⟨hhigh, hlast⟩ := append_inj_iff.mp ((and_mask_xb w).symm.trans hmatch)
  have hop : opNibble w = op := (BitVec.append_left_inj _).mp hhigh
  exact ⟨hwf _, by rw [henc, encodeXB_eq, ← hop, ← hlast, encodeXNN_self]⟩

/-- A row without operands fixes the whole word (R96). -/
theorem rowKeepsWord_const (i : Instr) (hwf : i.wellFormed = true) : RowKeepsWord ⟨0xFFFF#16, encode i, fun _ => i⟩ :=
  fun w hmatch => ⟨hwf, hmatch.symm.trans (BitVec.and_allOnes (x := w))⟩

/-- DXYN is the one row whose last nibble is a number of rows (R94). -/
theorem rowKeepsWord_drw : RowKeepsWord ⟨0xF000#16, 0xD000#16, fun w => .drw (fieldX w) (fieldY w) (fieldN w)⟩ := by
  intro w hmatch
  have hop : opNibble w = 0xD#4 := (BitVec.append_left_inj 0#12).mp ((and_mask_op w).symm.trans hmatch)
  have hn : BitVec.ofNat 4 (fieldN w) = lastNibble w := BitVec.eq_of_toNat_eq (Nat.mod_eq_of_lt (lastNibble w).isLt)
  refine ⟨decide_eq_true (lastNibble w).isLt, ?_⟩
  show encodeXYN 0xD#4 (fieldX w) (fieldY w) (BitVec.ofNat 4 (fieldN w)) = w
  rw [hn, ← hop, encodeXYN_self]

theorem opRowsLow_keepsWord : ∀ r ∈ opRowsLow, RowKeepsWord r := by
  simp only [opRowsLow, List.forall_mem_cons]
  exact ⟨rowKeepsWord_const .cls rfl, rowKeepsWord_const .ret rfl,
    rowKeepsWord_nnn 0x1#4 .jp, rowKeepsWord_nnn 0x2#4 .call,
    rowKeepsWord_xnn 0x3#4 .seImm, rowKeepsWord_xnn 0x4#4 .sneImm, rowKeepsWord_xy 0x5#4 0x0#4 .seReg,
    rowKeepsWord_xnn 0x6#4 .ldImm, rowKeepsWord_xnn 0x7#4 .addImm, nofun⟩

theorem opRowsAlu_keepsWord : ∀ r ∈ opRowsAlu, RowKeepsWord r := by
  simp only [opRowsAlu, List.forall_mem_cons]
  exact ⟨rowKeepsWord_xy 0x8#4 0x0#4 .ldReg, rowKeepsWord_xy 0x8#4 0x1#4 .orReg,
    rowKeepsWord_xy 0x8#4 0x2#4 .andReg, rowKeepsWord_xy 0x8#4 0x3#4 .xorReg, rowKeepsWord_xy 0x8#4 0x4#4 .addReg,
    rowKeepsWord_xy 0x8#4 0x5#4 .subReg, rowKeepsWord_xy 0x8#4 0x6#4 .shr, rowKeepsWord_xy 0x8#4 0x7#4 .subnReg,
    rowKeepsWord_xy 0x8#4 0xE#4 .shl, nofun⟩

theorem opRowsHigh_keepsWord : ∀ r ∈ opRowsHigh, RowKeepsWord r := by
  simp only [opRowsHigh, List.forall_mem_cons]
  exact ⟨rowKeepsWord_xy 0x9#4 0x0#4 .sneReg, rowKeepsWord_nnn 0xA#4 .ldI, rowKeepsWord_nnn 0xB#4 .jpV0,
    rowKeepsWord_xnn 0xC#4 .rnd, rowKeepsWord_drw, rowKeepsWord_xb 0xE#4 0x9E#8 .skp,
    rowKeepsWord_xb 0xE#4 0xA1#8 .sknp, nofun⟩

theorem opRowsMisc_keepsWord : ∀ r ∈ opRowsMisc, RowKeepsWord r := by
  simp only [opRowsMisc, List.forall_mem_cons]
  exact ⟨rowKeepsWord_xb 0xF#4 0x07#8 .ldVxDt, rowKeepsWord_xb 0xF#4 0x0A#8 .ldVxK,
    rowKeepsWord_xb 0xF#4 0x15#8 .ldDtVx, rowKeepsWord_xb 0xF#4 0x18#8 .ldStVx, rowKeepsWord_xb 0xF#4 0x1E#8 .addI,
    rowKeepsWord_xb 0xF#4 0x29#8 .ldF, rowKeepsWord_xb 0xF#4 0x33#8 .ldB, rowKeepsWord_xb 0xF#4 0x55#8 .storeRegs,
    rowKeepsWord_xb 0xF#4 0x65#8 .loadRegs, nofun⟩

theorem opTable_keepsWord : ∀ r ∈ opTable, RowKeepsWord r := by
  simp only [opTable, List.forall_mem_append]
  exact ⟨⟨⟨opRowsLow_keepsWord, opRowsAlu_keepsWord⟩, opRowsHigh_keepsWord⟩, opRowsMisc_keepsWord⟩

/-- Settles O33: a word decodes by a row it matches, and no row drops a bit of it. -/
theorem encodeOfDecode : Obligations.EncodeOfDecode := by
  intro w i h
  obtain ⟨r, hr, hmatch, rfl⟩ := match_of_decodeWord h
  exact opTable_keepsWord r hr w hmatch

/-! ## The words no row matches -/

/-- Settles O35: two rows fix some bit differently, so no word matches both. -/
theorem opcodePatternsDisjoint : Obligations.OpcodePatternsDisjoint :=
  opTable_conflict.imp fun hconflict w ⟨hp, hq⟩ =>
    not_selects_both hconflict w (beq_iff_eq.mpr hp) (beq_iff_eq.mpr hq)

/-- A word written nibble by nibble, its last three nibbles taken together. -/
theorem nibbles_assoc (a b c d : BitVec 4) : a ++ b ++ c ++ d = (a ++ (b ++ c ++ d) : BitVec 16) := by
  simp only [BitVec.append_assoc, BitVec.cast_eq]

/-- There are sixteen primary opcodes. -/
theorem nibble_cases : ∀ a : BitVec 4, a = 0x0#4 ∨ a = 0x1#4 ∨ a = 0x2#4 ∨ a = 0x3#4 ∨ a = 0x4#4 ∨ a = 0x5#4 ∨
    a = 0x6#4 ∨ a = 0x7#4 ∨ a = 0x8#4 ∨ a = 0x9#4 ∨ a = 0xA#4 ∨ a = 0xB#4 ∨ a = 0xC#4 ∨ a = 0xD#4 ∨ a = 0xE#4 ∨
    a = 0xF#4 := by decide

/-- The secondary opcodes of 8XYN that no row has are those R100 lists. -/
theorem unused_alu_nibbles : ∀ d : BitVec 4,
    (¬d = 0x0#4 ∧ ¬d = 0x1#4 ∧ ¬d = 0x2#4 ∧ ¬d = 0x3#4 ∧ ¬d = 0x4#4 ∧ ¬d = 0x5#4 ∧ ¬d = 0x6#4 ∧ ¬d = 0x7#4 ∧
        ¬d = 0xE#4) ↔
      d = 0x8#4 ∨ d = 0x9#4 ∨ d = 0xA#4 ∨ d = 0xB#4 ∨ d = 0xC#4 ∨ d = 0xD#4 ∨ d = 0xF#4 := by decide

/-- Settles O34: a row looks at the primary opcode and at no more than its last nibble or its low byte, the first two
rows aside, so the 34 conditions sort by the primary opcode. -/
theorem unrecognisedWords : Obligations.UnrecognisedWords := by
  intro a b c d
  have hop : opNibble (a ++ b ++ c ++ d) = a := by
    rw [nibbles_assoc]; exact BitVec.extractLsb'_append_eq_left
  have hlast : lastNibble (a ++ b ++ c ++ d) = d := BitVec.extractLsb'_append_eq_right
  have hlow : fieldNN (a ++ b ++ c ++ d) = c ++ d := by
    rw [BitVec.append_assoc (x₁ := a ++ b)]; exact BitVec.extractLsb'_append_eq_right
  have hword (low : BitVec 12) : a ++ b ++ c ++ d &&& 0xFFFF#16 = 0x0#4 ++ low ↔ a = 0x0#4 ∧ b ++ c ++ d = low := by
    rw [nibbles_assoc]
    exact (BitVec.and_allOnes (x := a ++ (b ++ c ++ d))).congr_left.trans append_inj_iff
  have hcls : a ++ b ++ c ++ d &&& 0xFFFF#16 = 0x00E0#16 ↔ a = 0x0#4 ∧ b ++ c ++ d = 0x0E0#12 := hword 0x0E0#12
  have hret : a ++ b ++ c ++ d &&& 0xFFFF#16 = 0x00EE#16 ↔ a = 0x0#4 ∧ b ++ c ++ d = 0x0EE#12 := hword 0x0EE#12
  simp only [decodeWord_eq_none, opTable, opRowsLow, opRowsAlu, opRowsHigh, opRowsMisc, List.forall_mem_append,
    List.forall_mem_cons, ne_eq, hcls, hret, matches_op, matches_xy, matches_xb, BitVec.reduceAnd, hop, hlast, hlow]
  rcases nibble_cases a with rfl | rfl | rfl | rfl | rfl | rfl | rfl | rfl | rfl | rfl | rfl | rfl | rfl | rfl | rfl |
    rfl <;> simp [opNibble, lastNibble, fieldNN, unused_alu_nibbles]

end Sys2Proof.Proofs

/-! Proofs of the family other: what an instruction can do, said once for all 34, and what writes each storage. -/

namespace Sys2Proof.Proofs

open Sys2Proof Sys2Proof.Machine Sys2Proof.Claims

/-! ## The meanings of control transfer and of the key wait, case by case -/

/-- RET on a stack that holds an entry (R120). -/
theorem exec_ret_of_succ {s : State} {k : Nat} (h : s.sp = k + 1) :
    exec .ret s = .next (({ s with sp := k } : State).setPc (s.stk.getD k 0)) := by
  show execRet s = _
  rw [execRet, State.pop_some h]

/-- RET on an empty stack (R201). -/
theorem exec_ret_of_zero {s : State} (h : s.sp = 0) : exec .ret s = .next (s.raise .stackUnderflow) := by
  show execRet s = _
  rw [execRet, State.pop_none h]

/-- CALL with room on the stack (R122). -/
theorem exec_call_of_lt {nnn : Word} {s : State} (h : s.sp < s.stackDepth) :
    exec (.call nnn) s = .next (({ s with stk := s.stk.set s.sp s.pc, sp := s.sp + 1 } : State).setPc nnn) := by
  show execCall nnn s = _
  rw [execCall, State.push_some h]

/-- CALL on a full stack (R202). -/
theorem exec_call_of_le {nnn : Word} {s : State} (h : s.stackDepth ≤ s.sp) :
    exec (.call nnn) s = .next (s.raise .stackOverflow) := by
  show execCall nnn s = _
  rw [execCall, State.push_none h]

/-- LD Vx, K with a key down (R182). -/
theorem exec_ldVxK_of_some {x : Reg} {s : State} {k : Byte} (h : s.lowestKey = some k) :
    exec (.ldVxK x) s = .next (s.setReg x k) := by
  show execLdVxK x s = _
  rw [execLdVxK, h]

/-- LD Vx, K with no key down (R182). -/
theorem exec_ldVxK_of_none {x : Reg} {s : State} (h : s.lowestKey = none) :
    exec (.ldVxK x) s = .next (s.setMode (.waitKey x)) := by
  show execLdVxK x s = _
  rw [execLdVxK, h]

/-! ## What an instruction can do -/

/-- The instructions that set `pc` beyond the fetch advance (R25). -/
def SetsPc (i : Instr) : Prop :=
  i = .ret ∨ (∃ nnn, i = .jp nnn ∨ i = .call nnn ∨ i = .jpV0 nnn) ∨ (∃ x nn, i = .seImm x nn ∨ i = .sneImm x nn) ∨
    (∃ x y, i = .seReg x y ∨ i = .sneReg x y) ∨ ∃ x, i = .skp x ∨ i = .sknp x

/-- What executing `i` in `s` can lead to: the storage it writes, and which instructions write that storage. -/
inductive Effect (i : Instr) (s : State) : State → Prop
  /-- nothing: a skip not taken -/
  | nothing : Effect i s s
  /-- V registers, no other than the instruction's own (R22, R27) -/
  | regs (v : Vector Byte 16) (kept : ∀ k : Reg, writesReg i k = false → v[k.val] = s.v[k.val]) :
      Effect i s { s with v := v }
  /-- the whole framebuffer (R172) -/
  | clear (hi : i = .cls) : Effect i s (s.setFb clearedFb)
  /-- the framebuffer and VF (R173) -/
  | draw (f : Framebuffer) (b : Byte) (hi : ∃ x y n, i = .drw x y n) : Effect i s ((s.setFb f).setReg vf b)
  /-- I (R30) -/
  | index (a : Word) (hi : (∃ nnn, i = .ldI nnn) ∨ (∃ x, i = .addI x) ∨ ∃ x, i = .ldF x) : Effect i s (s.setI a)
  /-- DT (R33) -/
  | delay (b : Byte) (hi : ∃ x, i = .ldDtVx x) : Effect i s (s.setDt b)
  /-- ST (R34) -/
  | sound (b : Byte) (hi : ∃ x, i = .ldStVx x) : Effect i s (s.setSt b)
  /-- memory, by writes that keep its canonical form (R37) -/
  | store (m : Memory) (hi : (∃ x, i = .ldB x) ∨ ∃ x, i = .storeRegs x)
      (hm : s.mem.wf s.font = true → m.wf s.font = true) : Effect i s { s with mem := m }
  /-- `pc` (R25) -/
  | jump (a : Word) (hi : SetsPc i) : Effect i s (s.setPc a)
  /-- RET on a stack that holds an entry (R120) -/
  | ret (k : Nat) (a : Word) (hsp : s.sp = k + 1) (hi : i = .ret) :
      Effect i s (({ s with sp := k } : State).setPc a)
  /-- CALL with room on the stack (R122) -/
  | call (nnn : Word) (hsp : s.sp < s.stackDepth) (hi : i = .call nnn) :
      Effect i s (({ s with stk := s.stk.set s.sp s.pc, sp := s.sp + 1 } : State).setPc nnn)
  /-- RET on an empty stack (R201) -/
  | underflow (hsp : s.sp = 0) (hi : i = .ret) : Effect i s (s.raise .stackUnderflow)
  /-- CALL on a full stack (R202) -/
  | overflow (hsp : s.stackDepth ≤ s.sp) (hi : ∃ nnn, i = .call nnn) : Effect i s (s.raise .stackOverflow)
  /-- LD Vx, K with no key down (R182) -/
  | wait (x : Reg) (hi : i = .ldVxK x) : Effect i s (s.setMode (.waitKey x))

section Effects

variable {i : Instr} {s : State}

theorem Effect.setReg {x : Reg} (hw : ∀ k, writesReg i k = (k == x)) (b : Byte) : Effect i s (s.setReg x b) :=
  .regs _ fun k hk => vKeptBut_setReg s x b k (ne_of_beq_false ((hw k).symm.trans hk))

theorem Effect.setFlagged {x : Reg} (hw : ∀ k, writesReg i k = (k == x || k == 15)) (f b : Byte) :
    Effect i s (s.setFlagged x f b) :=
  .regs _ fun k hk => by
    have h := State.reg_setFlagged s x k f b
    obtain ⟨hx, hflag⟩ := Bool.or_eq_false_iff.mp ((hw k).symm.trans hk)
    rwa [if_neg (ne_of_beq_false hx), if_neg (ne_of_beq_false hflag)] at h

theorem Effect.skipIf (hi : SetsPc i) (c : Bool) : Effect i s (s.skipIf c) := by
  cases c
  · exact .nothing
  · exact .jump _ hi

end Effects

/-- Every instruction completes, with one of the effects its kind has. -/
theorem exec_effect (i : Instr) (s : State) : ∃ t, exec i s = .next t ∧ Effect i s t := by
  cases i with
  | cls => exact ⟨_, rfl, .clear rfl⟩
  | ret =>
    cases h : s.sp with
    | zero => exact ⟨_, exec_ret_of_zero h, .underflow h rfl⟩
    | succ k => exact ⟨_, exec_ret_of_succ h, .ret k _ h rfl⟩
  | call nnn =>
    rcases Nat.lt_or_ge s.sp s.stackDepth with h | h
    · exact ⟨_, exec_call_of_lt h, .call nnn h rfl⟩
    · exact ⟨_, exec_call_of_le h, .overflow h ⟨nnn, rfl⟩⟩
  | jp nnn => exact ⟨_, rfl, .jump _ (.inr (.inl ⟨nnn, .inl rfl⟩))⟩
  | jpV0 nnn => exact ⟨_, rfl, .jump _ (.inr (.inl ⟨nnn, .inr (.inr rfl)⟩))⟩
  | seImm x nn => exact ⟨_, rfl, .skipIf (.inr (.inr (.inl ⟨x, nn, .inl rfl⟩))) _⟩
  | sneImm x nn => exact ⟨_, rfl, .skipIf (.inr (.inr (.inl ⟨x, nn, .inr rfl⟩))) _⟩
  | seReg x y => exact ⟨_, rfl, .skipIf (.inr (.inr (.inr (.inl ⟨x, y, .inl rfl⟩)))) _⟩
  | sneReg x y => exact ⟨_, rfl, .skipIf (.inr (.inr (.inr (.inl ⟨x, y, .inr rfl⟩)))) _⟩
  | skp x => exact ⟨_, rfl, .skipIf (.inr (.inr (.inr (.inr ⟨x, .inl rfl⟩)))) _⟩
  | sknp x => exact ⟨_, rfl, .skipIf (.inr (.inr (.inr (.inr ⟨x, .inr rfl⟩)))) _⟩
  | ldImm | addImm | ldReg | orReg | andReg | xorReg | rnd | ldVxDt =>
    exact ⟨_, rfl, .setReg (fun _ => rfl) _⟩
  | addReg | subReg | shr | subnReg | shl => exact ⟨_, rfl, .setFlagged (fun _ => rfl) _ _⟩
  | drw x y n => exact ⟨_, rfl, .draw _ _ ⟨x, y, n, rfl⟩⟩
  | ldVxK x =>
    cases h : s.lowestKey with
    | none => exact ⟨_, exec_ldVxK_of_none h, .wait x rfl⟩
    | some k => exact ⟨_, exec_ldVxK_of_some h, .setReg (fun _ => rfl) k⟩
  | ldDtVx x => exact ⟨_, rfl, .delay _ ⟨x, rfl⟩⟩
  | ldStVx x => exact ⟨_, rfl, .sound _ ⟨x, rfl⟩⟩
  | ldI nnn => exact ⟨_, rfl, .index _ (.inl ⟨nnn, rfl⟩)⟩
  | addI x => exact ⟨_, rfl, .index _ (.inr (.inl ⟨x, rfl⟩))⟩
  | ldF x => exact ⟨_, rfl, .index _ (.inr (.inr ⟨x, rfl⟩))⟩
  | ldB x =>
    exact ⟨_, rfl, .store _ (.inl ⟨x, rfl⟩) (Memory.wf_write _ _ <| Memory.wf_write _ _ <| Memory.wf_write _ _ ·)⟩
  | storeRegs x =>
    refine ⟨_, rfl, ?_⟩
    rw [storeLoop_eq]
    exact .store _ (.inr ⟨x, rfl⟩) storeLoop_wf
  | loadRegs x =>
    refine ⟨_, rfl, ?_⟩
    rw [loadLoop_eq]
    refine .regs _ fun k hk => ?_
    have h := loadLoop_reg (Nat.succ_le_of_lt x.isLt) s k
    have hk : ¬ k.val < x.val + 1 := fun hlt => of_decide_eq_false hk (Nat.le_of_lt_succ hlt)
    rwa [if_neg hk] at h

/-- The state an instruction leaves is one of its effects. -/
theorem effect_of_exec {i : Instr} {s t : State} (h : exec i s = .next t) : Effect i s t := by
  obtain ⟨u, hu, heffect⟩ := exec_effect i s
  obtain rfl : u = t := by simpa [hu] using h
  exact heffect

/-! ## What each storage is written by -/

section Storages

variable {i : Instr} {s t : State} (h : Effect i s t)

include h

theorem Effect.reg_eq {k : Reg} (hk : writesReg i k = false) : t.reg k = s.reg k := by
  cases h with
  | regs v kept => exact kept k hk
  | draw f b hi =>
    obtain ⟨x, y, n, rfl⟩ := hi
    exact vKeptBut_setReg (s.setFb f) vf b k (ne_of_beq_false hk)
  | _ => rfl

theorem Effect.i_eq_or : t.i = s.i ∨ (∃ nnn, i = .ldI nnn) ∨ (∃ x, i = .addI x) ∨ ∃ x, i = .ldF x := by
  cases h with
  | index a hi => exact .inr hi
  | _ => exact .inl rfl

theorem Effect.dt_eq_or : t.dt = s.dt ∨ ∃ x, i = .ldDtVx x := by
  cases h with
  | delay b hi => exact .inr hi
  | _ => exact .inl rfl

theorem Effect.st_eq_or : t.st = s.st ∨ ∃ x, i = .ldStVx x := by
  cases h with
  | sound b hi => exact .inr hi
  | _ => exact .inl rfl

theorem Effect.mem_eq_or : t.mem = s.mem ∨ (∃ x, i = .ldB x) ∨ ∃ x, i = .storeRegs x := by
  cases h with
  | store m hi hm => exact .inr hi
  | _ => exact .inl rfl

theorem Effect.fb_eq_or : t.fb = s.fb ∨ i = .cls ∨ ∃ x y n, i = .drw x y n := by
  cases h with
  | clear hi => exact .inr (.inl hi)
  | draw f b hi => exact .inr (.inr hi)
  | _ => exact .inl rfl

theorem Effect.stack_eq_or : (t.sp = s.sp ∧ t.stk = s.stk) ∨ i = .ret ∨ ∃ nnn, i = .call nnn := by
  cases h with
  | ret k a hsp hi => exact .inr (.inl hi)
  | call nnn hsp hi => exact .inr (.inr ⟨nnn, hi⟩)
  | _ => exact .inl ⟨rfl, rfl⟩

theorem Effect.pc_eq_or : t.pc = s.pc ∨ SetsPc i := by
  cases h with
  | jump a hi => exact .inr hi
  | ret k a hsp hi => exact .inr (.inl hi)
  | call nnn hsp hi => exact .inr (.inr (.inl ⟨nnn, .inr (.inl hi)⟩))
  | _ => exact .inl rfl

theorem Effect.mode_eq_or : t.mode = s.mode ∨ i = .ret ∨ (∃ nnn, i = .call nnn) ∨ ∃ x, i = .ldVxK x := by
  cases h with
  | underflow hsp hi => exact .inr (.inl hi)
  | overflow hsp hi => exact .inr (.inr (.inl hi))
  | wait x hi => exact .inr (.inr (.inr ⟨x, hi⟩))
  | _ => exact .inl rfl

/-- No instruction writes the environment's lines, the schedule or the output record (R40, R205). -/
theorem Effect.environment_eq :
    t.keys = s.keys ∧ t.rnd = s.rnd ∧ t.turns = s.turns ∧ t.turnNo = s.turnNo ∧ t.out = s.out := by
  cases h <;> exact ⟨rfl, rfl, rfl, rfl, rfl⟩

/-- No instruction writes a parameter of the machine (R43). -/
theorem Effect.parameters_eq : t.font = s.font ∧ t.stackDepth = s.stackDepth := by
  cases h with
  | call nnn hsp hi => exact ⟨rfl, List.length_set⟩
  | _ => exact ⟨rfl, rfl⟩

end Storages

/-! ## The statements -/

/-- Settles O49: only a write of V registers and a draw reach a V register, each at the instruction's own. -/
theorem registersWrittenOnlyAsDestinations : Obligations.RegistersWrittenOnlyAsDestinations := by
  intro i s t k h hk
  exact (effect_of_exec h).reg_eq hk

/-- Settles O50: each of the three registers has its own effect. -/
theorem specialRegistersWrittenOnlyBy : Obligations.SpecialRegistersWrittenOnlyBy := by
  intro i s t h
  have heffect := effect_of_exec h
  exact ⟨heffect.i_eq_or.resolve_left, heffect.dt_eq_or.resolve_left, heffect.st_eq_or.resolve_left⟩

/-- Settles O51: an effect that leaves the cells alone leaves every byte as it reads, the font being kept. -/
theorem storagesWrittenOnlyBy : Obligations.StoragesWrittenOnlyBy := by
  intro i s t h
  have heffect := effect_of_exec h
  refine ⟨fun ⟨a, ha⟩ => heffect.mem_eq_or.resolve_left fun hmem => ?_, heffect.fb_eq_or.resolve_left,
    heffect.environment_eq⟩
  exact ha (State.readByte_congr hmem heffect.parameters_eq.1 a)

/-- Settles O52: `pc` beside the stack is written by a jump or a skip, MODE by a fault or the key wait. -/
theorem stackPcModeWrittenOnlyBy : Obligations.StackPcModeWrittenOnlyBy := by
  intro i s t h
  have heffect := effect_of_exec h
  refine ⟨fun hchanged => heffect.stack_eq_or.resolve_left fun ⟨hsp, hstk⟩ => ?_, heffect.pc_eq_or.resolve_left,
    heffect.mode_eq_or.resolve_left⟩
  exact hchanged.elim (· hsp) (· hstk)

/-- Settles O48: of the effects of an instruction only the two stack faults enter HALT. -/
theorem onlyRetAndCallFault : Obligations.OnlyRetAndCallFault := by
  intro i s t cause h hrun hhalt
  cases effect_of_exec h with
  | underflow hsp hi =>
    obtain rfl : .stackUnderflow = cause := by simpa using hhalt
    exact ⟨.inl ⟨hi, rfl, hsp⟩, rfl⟩
  | overflow hsp hi =>
    obtain rfl : .stackOverflow = cause := by simpa using hhalt
    exact ⟨.inr ⟨hi, rfl, hsp⟩, rfl⟩
  | wait x hi => cases hhalt
  | _ => cases hrun.symm.trans hhalt

end Sys2Proof.Proofs

/-! Proofs of the family other: what a step can do, said once for every turn, and what every step keeps. -/

namespace Sys2Proof.Proofs

open Sys2Proof Sys2Proof.Machine Sys2Proof.Claims

/-! ## The steps of the engine -/

/-- A slot starts from the state the statements call `slotTaken` (R90). -/
theorem step_slot {s : State} {keys : BitVec 16} {rnd : Byte} (h : s.nextTurn = .engine keys rnd) :
    step s = (slotTaken s keys rnd).engineStep := by
  rw [step_engine h, State.endTurn_eq]
  rfl

/-- The fetch advance, as the statements write it (R90). -/
theorem advance_eq (s : State) : s.advance = { s with pc := plusTwo s.pc } := by
  have h : low12 (s.pc + 2) = plusTwo s.pc := BitVec.eq_of_toNat_eq <|
    (low12_add_two_toNat s.pc).trans (Nat.mod_eq_of_lt (by omega)).symm
  rw [State.advance, State.setPc, h]

/-- A sample of the keys that finds one down (R186). -/
theorem pollKeys_of_some {s : State} {k : Byte} (x : Reg) (h : s.lowestKey = some k) :
    s.pollKeys x = (s.setReg x k).setMode .run := by
  rw [State.pollKeys, h]

/-- A sample of the keys that finds none down (R186). -/
theorem pollKeys_of_none {s : State} (x : Reg) (h : s.lowestKey = none) : s.pollKeys x = s := by
  rw [State.pollKeys, h]

/-! ## What a step can do -/

/-- What the agent whose turn it is can do in `s`, the turn being used up (R6). -/
inductive Move (s : State) : State → Prop
  /-- a slot in RUN executes an instruction after the fetch advance (R90) -/
  | instruction (keys : BitVec 16) (rnd : Byte) (i : Instr) (t : State)
      (h : Effect i (s.present keys rnd).advance t) : Move s t
  /-- a slot in RUN reports an unrecognised word (R99) -/
  | unrecognised (keys : BitVec 16) (rnd : Byte) (e : Event) : Move s ((s.present keys rnd).advance.emit e)
  /-- a slot in WAITKEY finds a key down (R186) -/
  | resume (keys : BitVec 16) (rnd : Byte) (x : Reg) (k : Byte) :
      Move s (((s.present keys rnd).setReg x k).setMode .run)
  /-- a slot in WAITKEY with no key down, or in HALT (R186, R212) -/
  | idle (keys : BitVec 16) (rnd : Byte) : Move s (s.present keys rnd)
  /-- a tick (R216) -/
  | tick : Move s s.timerTick
  /-- the host loads a ROM (R243) -/
  | load (rom : List Byte) : Move s (s.load rom)
  /-- the host resets (R244) -/
  | reset : Move s s.hostReset

theorem engineStep_move (s : State) (keys : BitVec 16) (rnd : Byte) :
    ∃ t, (s.present keys rnd).engineStep = .next t ∧ Move s t := by
  cases hmode : (s.present keys rnd).mode with
  | run =>
    rw [engineStep_run hmode]
    cases hword : decodeWord (s.present keys rnd).fetchWord with
    | none => exact ⟨_, fetchExec_none hword, .unrecognised keys rnd _⟩
    | some i =>
      obtain ⟨t, ht, heffect⟩ := exec_effect i (s.present keys rnd).advance
      exact ⟨t, (fetchExec_some hword).trans ht, .instruction keys rnd i t heffect⟩
  | waitKey x =>
    rw [engineStep_waitKey hmode]
    cases hkey : (s.present keys rnd).lowestKey with
    | none => exact ⟨_, congrArg _ (pollKeys_of_none x hkey), .idle keys rnd⟩
    | some k => exact ⟨_, congrArg _ (pollKeys_of_some x hkey), .resume keys rnd x k⟩
  | halt cause => exact ⟨_, engineStep_halt hmode, .idle keys rnd⟩

/-- Every step completes, with one of the moves the agents have. -/
theorem step_move (s : State) : ∃ t, step s = .next t ∧ Move s.endTurn t := by
  cases h : s.nextTurn with
  | engine keys rnd =>
    rw [step_engine h]
    exact engineStep_move s.endTurn keys rnd
  | tick => exact ⟨_, step_tick h, .tick⟩
  | load rom => exact ⟨_, step_load h, .load rom⟩
  | reset => exact ⟨_, step_reset h, .reset⟩

/-- The state a step leaves is one of its moves. -/
theorem move_of_step {s t : State} (h : step s = .next t) : Move s.endTurn t := by
  obtain ⟨u, hu, hmove⟩ := step_move s
  obtain rfl : u = t := by simpa [hu] using h
  exact hmove

/-! ## The invariant -/

/-- Power-on meets the invariant: no cell is listed, and every value is small. -/
theorem inv_powerOn (font : Font) (depth : Nat) : Inv (State.powerOn font depth) where
  pc := (by decide : Is12Bit 0x200)
  i := (by decide : Is12Bit 0x000)
  stk a ha := by rw [List.eq_of_mem_replicate ha]; decide
  sp := Nat.zero_le _
  mem := rfl

/-- Every effect of an instruction keeps the invariant: `pc` and I are written through the mask, an entry is the `pc` of
the caller, SP moves only where the stack has room or an entry. -/
theorem Effect.inv {i : Instr} {s t : State} (hs : Inv s) (h : Effect i s t) : Inv t := by
  obtain ⟨hpc, hindex, hstk, hsp, hmem⟩ := hs
  cases h with
  | index a hi => exact ⟨hpc, low12_lt a, hstk, hsp, hmem⟩
  | store m hi hm => exact ⟨hpc, hindex, hstk, hsp, hm hmem⟩
  | jump a hi => exact ⟨low12_lt a, hindex, hstk, hsp, hmem⟩
  | ret k a hk hi => exact ⟨low12_lt a, hindex, hstk, Nat.le_of_succ_le (hk.symm.trans_le hsp), hmem⟩
  | call nnn hroom hi =>
    refine ⟨low12_lt nnn, hindex, fun a ha => ?_, Nat.le_of_lt_succ ?_, hmem⟩
    · rcases List.mem_or_eq_of_mem_set ha with hold | rfl
      · exact hstk a hold
      · exact hpc
    · simpa [State.stackDepth] using hroom
  | _ => exact ⟨hpc, hindex, hstk, hsp, hmem⟩

/-- A load keeps the invariant: rejected it changes nothing, else the state is that at power-on over a loaded memory. -/
theorem inv_load {s : State} (hs : Inv s) (rom : List Byte) : Inv (s.load rom) := by
  rcases Nat.lt_or_ge 3584 rom.length with hlarge | hfits
  · rw [State.load_too_large hlarge]
    exact ⟨hs.pc, hs.i, hs.stk, hs.sp, hs.mem⟩
  · rw [State.load_fits hfits]
    have hon := inv_powerOn s.font s.stackDepth
    exact ⟨hon.pc, hon.i, hon.stk, hon.sp, Memory.wf_loaded hfits hs.mem⟩

/-- Every move keeps the invariant. -/
theorem Move.inv {s t : State} (hs : Inv s) (h : Move s t) : Inv t := by
  cases h with
  | instruction keys rnd i t heffect =>
    exact Effect.inv (s := (s.present keys rnd).advance) ⟨low12_lt _, hs.i, hs.stk, hs.sp, hs.mem⟩ heffect
  | unrecognised keys rnd e => exact ⟨low12_lt _, hs.i, hs.stk, hs.sp, hs.mem⟩
  | load rom => exact inv_load hs rom
  | reset =>
    have hload := inv_load hs []
    exact ⟨hload.pc, hload.i, hload.stk, hload.sp, hload.mem⟩
  | _ => exact ⟨hs.pc, hs.i, hs.stk, hs.sp, hs.mem⟩

/-- Settles O46: using up the turn touches nothing the invariant speaks of, and every move keeps it. -/
theorem stepKeepsInv : Obligations.StepKeepsInv := by
  intro s t hs h
  refine Move.inv ?_ (move_of_step h)
  rw [State.endTurn_eq]
  exact ⟨hs.pc, hs.i, hs.stk, hs.sp, hs.mem⟩

/-- Settles O45: `State.reset` is power-on at the defaults. -/
theorem resetMeetsInv : Obligations.ResetMeetsInv :=
  ⟨inv_powerOn defaultFont Config.defaultStackDepth, inv_powerOn⟩

/-! ## Completion, and the parameters -/

/-- Settles O47: no agent's move is a fault or a refusal. -/
theorem everyStepCompletes : Obligations.EveryStepCompletes := by
  intro s
  obtain ⟨t, ht, _⟩ := step_move s
  exact ⟨t, ht⟩

/-- A load keeps FONT and makes a stack of the depth there was (R43, R243). -/
theorem load_parameters (s : State) (rom : List Byte) :
    (s.load rom).font = s.font ∧ (s.load rom).stackDepth = s.stackDepth := by
  rcases Nat.lt_or_ge 3584 rom.length with hlarge | hfits
  · rw [State.load_too_large hlarge]
    exact ⟨rfl, rfl⟩
  · rw [State.load_fits hfits]
    exact ⟨rfl, s.reinit_stackDepth⟩

/-- No move writes a parameter of the machine (R43). -/
theorem Move.parameters_eq {s t : State} (h : Move s t) : t.font = s.font ∧ t.stackDepth = s.stackDepth := by
  cases h with
  | instruction keys rnd i t heffect => exact heffect.parameters_eq
  | load rom => exact load_parameters s rom
  | reset => exact load_parameters s []
  | _ => exact ⟨rfl, rfl⟩

/-- Settles O59: the length of the stack and the font are the same before and after every move. -/
theorem stepKeepsParameters : Obligations.StepKeepsParameters := by
  intro s t h
  have hmove := (move_of_step h).parameters_eq
  rwa [State.endTurn_eq] at hmove

end Sys2Proof.Proofs

/-! Proofs of the family other: control transfer and skips. -/

namespace Sys2Proof.Proofs

open Sys2Proof Sys2Proof.Machine Sys2Proof.Claims

/-! ## RET, CALL and the indexed jump -/

/-- Settles O1: the popped entry goes through the mask on `pc`, and the underflow is one write of MODE. -/
theorem retPopsOrUnderflows : Obligations.RetPopsOrUnderflows := by
  intro s
  refine ⟨decodeWord_encode (i := .ret) rfl, fun k a hsp ha => ?_, exec_ret_of_zero⟩
  have hentry : s.stk.getD k 0 = a := by rw [List.getD_eq_getElem?_getD, ha, Option.getD_some]
  refine ⟨_, exec_ret_of_succ hsp, rfl, ?_, rfl, State.readByte_congr rfl rfl⟩
  rw [State.setPc_pc, low12_toNat, hentry]

/-- Settles O3: the push writes entry SP alone, the jump is one write of `pc`, and the overflow one write of MODE. -/
theorem callPushesOrOverflows : Obligations.CallPushesOrOverflows := by
  intro nnn s
  refine ⟨?_, fun hroom => ?_, exec_call_of_le⟩
  · rw [← encodeNNN_setWidth]
    exact decodeWord_encode (i := .call _) (isAddr_setWidth nnn)
  · exact ⟨_, exec_call_of_lt hroom, rfl, List.length_set, List.getElem?_set_self hroom,
      fun j hj => List.getElem?_set_ne hj.symm, low12_setWidth_toNat nnn, rfl, State.readByte_congr rfl rfl⟩

/-- Settles O4: the sum of the 12-bit operand and the byte goes through the mask on `pc`. -/
theorem indexedJumpAddsV0 : Obligations.IndexedJumpAddsV0 := by
  intro nnn s
  refine ⟨?_, s.setPc _, rfl, ?_, onlyPc_setPc s _⟩
  · rw [← encodeNNN_setWidth]
    exact decodeWord_encode (i := .jpV0 _) (isAddr_setWidth nnn)
  · rw [State.setPc_pc, State.indexedTarget, low12_add_toNat, low12_setWidth_toNat, zext_toNat]

/-- Settles O53: RET pops the entry CALL pushed, and the push touched no entry below. -/
theorem callThenReturn : Obligations.CallThenReturn := by
  intro nnn s t hroom hpc h
  obtain rfl := Host.Outcome.next.inj ((exec_call_of_lt hroom).symm.trans h)
  refine ⟨_, exec_ret_of_succ rfl, ?_, rfl, fun k hk => List.getElem?_set_ne (Nat.ne_of_gt hk)⟩
  have hentry : (s.stk.set s.sp s.pc).getD s.sp 0 = s.pc := by
    rw [List.getD_eq_getElem?_getD, List.getElem?_set_self hroom, Option.getD_some]
  exact (congrArg low12 hentry).trans (low12_of_lt hpc)

/-! ## Skips -/

/-- A skip on a condition and the skip on its complement: one of the two is taken, and each changes `pc` alone. -/
theorem skipIf_complement (s : State) (c : Bool) : OnlyPc s (s.skipIf c) ∧ OnlyPc s (s.skipIf !c) ∧
    (c = true → (s.skipIf c).pc = plusTwo s.pc ∧ (s.skipIf !c).pc = s.pc) ∧
    (c = false → (s.skipIf c).pc = s.pc ∧ (s.skipIf !c).pc = plusTwo s.pc) := by
  have htaken : (s.skipIf true).pc = plusTwo s.pc := congrArg State.pc (advance_eq s)
  have hkept : OnlyPc s (s.skipIf false) := ⟨rfl, State.readByte_congr rfl rfl⟩
  cases c
  · exact ⟨hkept, onlyPc_setPc s _, nofun, fun _ => ⟨rfl, htaken⟩⟩
  · exact ⟨onlyPc_setPc s _, hkept, fun _ => ⟨htaken, rfl⟩, nofun⟩

/-- Settles O5: SE skips where V[X] = NN, SNE is its complement. -/
theorem skipsOnImmediate : Obligations.SkipsOnImmediate := by
  intro x nn s
  obtain ⟨hse, hsne, hequal, hdiffer⟩ := skipIf_complement s (s.reg x == nn)
  exact ⟨decodeWord_encode (i := .seImm x nn) rfl, decodeWord_encode (i := .sneImm x nn) rfl, _, _, rfl, rfl, hse, hsne,
    fun h => hequal (beq_iff_eq.mpr h), fun h => hdiffer (beq_eq_false_iff_ne.mpr h)⟩

/-- Settles O6: SE skips where V[X] = V[Y], SNE is its complement. -/
theorem skipsOnRegisters : Obligations.SkipsOnRegisters := by
  intro x y s
  obtain ⟨hse, hsne, hequal, hdiffer⟩ := skipIf_complement s (s.reg x == s.reg y)
  exact ⟨decodeWord_encode (i := .seReg x y) rfl, decodeWord_encode (i := .sneReg x y) rfl, _, _, rfl, rfl, hse, hsne,
    fun h => hequal (beq_iff_eq.mpr h), fun h => hdiffer (beq_eq_false_iff_ne.mpr h)⟩

/-- Settles O25: SKP skips where the key of the low nibble of V[X] is down, SKNP is its complement. -/
theorem skipsOnKey : Obligations.SkipsOnKey := by
  intro x s
  obtain ⟨hskp, hsknp, hdown, hup⟩ := skipIf_complement s (s.keyDown (keyCode (s.reg x)))
  have hline : s.keyDown (keyCode (s.reg x)) = s.keys.getLsbD ((s.reg x).toNat % 16) := by
    rw [keyCode_eq, State.keyDown]
  exact ⟨decodeWord_encode (i := .skp x) rfl, decodeWord_encode (i := .sknp x) rfl, _, _, rfl, rfl, hskp, hsknp,
    fun h => hdown (hline.trans h), fun h => hup (hline.trans h)⟩

end Sys2Proof.Proofs

/-! Proofs of the family other: flagged arithmetic, the random byte, timers and the key wait. -/

namespace Sys2Proof.Proofs

open Sys2Proof Sys2Proof.Machine Sys2Proof.Claims

/-! ## One flagged result -/

/-- The data result stands, VF or not (R29). -/
theorem reg_setFlagged_same (s : State) (x : Reg) (f b : Byte) : (s.setFlagged x f b).reg x = b := by
  rw [State.reg_setFlagged, if_pos rfl]

/-- Where the destination is not VF, VF holds the flag (R29). -/
theorem reg_setFlagged_flag (s : State) {x : Reg} (f b : Byte) (hx : x ≠ 15) : (s.setFlagged x f b).reg 15 = f := by
  rw [State.reg_setFlagged, if_neg hx.symm, if_pos rfl]

theorem vKeptButFlagAnd_setFlagged (s : State) (x : Reg) (f b : Byte) : VKeptButFlagAnd x s (s.setFlagged x f b) :=
  fun k hx hflag => by rw [State.reg_setFlagged, if_neg hx, if_neg hflag]

theorem onlyV_setFlagged (s : State) (x : Reg) (f b : Byte) : OnlyV s (s.setFlagged x f b) :=
  ⟨rfl, State.readByte_congr rfl rfl⟩

/-- A flag is 1 where its condition holds, else 0 (R27). -/
theorem flagByte_decide (p : Prop) [Decidable p] : flagByte (decide p) = if p then 1 else 0 := by
  by_cases h : p <;> simp [flagByte, h]

theorem flagByte_toNat (c : Bool) : (flagByte c).toNat = c.toNat := by
  cases c <;> rfl

/-- A flag that is bit k of a byte (R149, R151). -/
theorem flagByte_getLsbD_toNat (b : Byte) (k : Nat) : (flagByte (b.getLsbD k)).toNat = b.toNat / 2 ^ k % 2 := by
  rw [flagByte_toNat, BitVec.getLsbD, Nat.toNat_testBit]

/-- The difference of bytes as the statements write it (R10). -/
theorem byte_sub_toNat (a b : Byte) : (a - b).toNat = (a.toNat + 256 - b.toNat) % 256 := by
  rw [BitVec.toNat_sub]
  omega

/-! ## The statements -/

/-- Settles O11: the flag is the carry of the operands read before any write. -/
theorem addRegistersWithCarry : Obligations.AddRegistersWithCarry := by
  intro x y s
  refine ⟨decodeWord_encode (i := .addReg x y) rfl, s.setFlagged x _ _, rfl, ?_, fun hx => ?_,
    vKeptButFlagAnd_setFlagged s x _ _, onlyV_setFlagged s x _ _⟩
  · rw [reg_setFlagged_same, BitVec.toNat_add]
  · rw [reg_setFlagged_flag s _ _ hx, carry, flagByte_decide]

/-- Settles O12: SUB and SUBN are one flagged difference with the operands exchanged. -/
theorem subtractionsWithNotBorrow : Obligations.SubtractionsWithNotBorrow := by
  intro x y s
  refine ⟨decodeWord_encode (i := .subReg x y) rfl, decodeWord_encode (i := .subnReg x y) rfl, s.setFlagged x _ _,
    s.setFlagged x _ _, rfl, rfl, ?_, ?_, fun hx => ?_, fun hx => ?_, vKeptButFlagAnd_setFlagged s x _ _,
    vKeptButFlagAnd_setFlagged s x _ _, onlyV_setFlagged s x _ _, onlyV_setFlagged s x _ _⟩
  · rw [reg_setFlagged_same, byte_sub_toNat]
  · rw [reg_setFlagged_same, byte_sub_toNat]
  · rw [reg_setFlagged_flag s _ _ hx, notBorrow, flagByte_decide]
  · rw [reg_setFlagged_flag s _ _ hx, notBorrow, flagByte_decide]

/-- Settles O13: the lost bit is bit 0 of the old value, or bit 7, which is its half of 128. -/
theorem shiftsByOneWithLostBit : Obligations.ShiftsByOneWithLostBit := by
  intro x y s
  refine ⟨decodeWord_encode (i := .shr x y) rfl, decodeWord_encode (i := .shl x y) rfl, s.setFlagged x _ _,
    s.setFlagged x _ _, rfl, rfl, ?_, ?_, fun hx => ⟨?_, ?_⟩, vKeptButFlagAnd_setFlagged s x _ _,
    vKeptButFlagAnd_setFlagged s x _ _, onlyV_setFlagged s x _ _, onlyV_setFlagged s x _ _⟩
  · rw [reg_setFlagged_same, BitVec.toNat_ushiftRight, Nat.shiftRight_eq_div_pow, Nat.pow_one]
  · rw [reg_setFlagged_same, BitVec.toNat_shiftLeft, Nat.shiftLeft_eq, Nat.pow_one]
  · rw [reg_setFlagged_flag s _ _ hx, shiftedOutRight, flagByte_getLsbD_toNat, Nat.pow_zero, Nat.div_one]
  · rw [reg_setFlagged_flag s _ _ hx, shiftedOutLeft, flagByte_getLsbD_toNat]
    have := (s.reg x).isLt
    omega

/-- Settles O14: the written byte is the port's byte masked, and nothing is assumed of the port. -/
theorem randomByteMasked : Obligations.RandomByteMasked := by
  intro x nn s
  refine ⟨decodeWord_encode (i := .rnd x nn) rfl, s.setReg x _, rfl, fun b _ => ?_, vKeptBut_setReg s x _,
    onlyV_setReg s x _⟩
  rw [reg_setReg_same, BitVec.getLsbD_and, State.randomByte]

/-- Settles O27: one write of V[X], with DT. -/
theorem readDelayTimer : Obligations.ReadDelayTimer := by
  intro x s
  exact ⟨decodeWord_encode (i := .ldVxDt x) rfl, s.setReg x _, rfl, reg_setReg_same s x _, vKeptBut_setReg s x _,
    onlyV_setReg s x _⟩

/-- Settles O28: one write of DT, with V[X]. -/
theorem setDelayTimer : Obligations.SetDelayTimer := by
  intro x s
  exact ⟨decodeWord_encode (i := .ldDtVx x) rfl, s.setDt _, rfl, rfl, rfl, State.readByte_congr rfl rfl⟩

/-- Settles O29: one write of ST, with V[X], and the sound line is a function of ST. -/
theorem setSoundTimer : Obligations.SetSoundTimer := by
  intro x s
  exact ⟨decodeWord_encode (i := .ldStVx x) rfl, s.setSt _, rfl, rfl, decide_eq_true_iff, rfl,
    State.readByte_congr rfl rfl⟩

/-- The code of a key is its number (R182). -/
theorem ofNat_key_toNat (k : Fin 16) : (BitVec.ofNat 8 k.val).toNat = k.val :=
  Nat.mod_eq_of_lt (Nat.lt_trans k.isLt (by decide))

/-- Settles O26: with a key down one write of V[X], with none one write of MODE. -/
theorem waitForKeyTakesLowestOrWaits : Obligations.WaitForKeyTakesLowestOrWaits := by
  intro x s
  refine ⟨decodeWord_encode (i := .ldVxK x) rfl, fun k hdown hlowest => ?_,
    fun hnone => exec_ldVxK_of_none (State.lowestKey_none hnone)⟩
  refine ⟨_, exec_ldVxK_of_some (State.lowestKey_some hdown hlowest), ?_, vKeptBut_setReg s x _, onlyV_setReg s x _⟩
  rw [reg_setReg_same, ofNat_key_toNat]

end Sys2Proof.Proofs

/-! Proofs of the family other: the BCD store and the block transfers. -/

namespace Sys2Proof.Proofs

open Sys2Proof Sys2Proof.Machine Sys2Proof.Claims

/-! ## Bytes stored from I on -/

/-- `t` is `s` with `bytes` stored from I on, addresses modulo 4096, and nothing else changed (R60). -/
structure StoredFromI (s : State) (bytes : List Byte) (t : State) : Prop where
  stored : ∀ k (h : k < bytes.length), t.readByte (s.ea k) = bytes[k]
  kept : ∀ a, (∀ k, k < bytes.length → a % 4096 ≠ s.ea k) → t.readByte a = s.readByte a
  frame : t = { s with mem := t.mem }

/-- How far an address lies behind I, modulo 4096: the index of `byteAfter`. -/
theorem ea_offset (s : State) (a : Nat) : s.ea ((a % 4096 + 4096 - s.i.toNat % 4096) % 4096) = a % 4096 := by
  simp only [State.ea, Config.memSize]
  omega

/-- What the statements say of a byte after a store is how the stored state reads. -/
theorem StoredFromI.readByte {s t : State} {bytes : List Byte} (h : StoredFromI s bytes t) (a : Nat) :
    t.readByte a = byteAfter s bytes a := by
  have hoffset := ea_offset s a
  unfold byteAfter
  generalize hk : (a % 4096 + 4096 - s.i.toNat % 4096) % 4096 = k at hoffset ⊢
  split
  · next hin =>
    rw [← h.stored k hin, hoffset]
    exact (Memory.read_mod t.mem a).symm
  · next hout =>
    have hk4096 : k < 4096 := hk ▸ Nat.mod_lt _ (by decide)
    refine h.kept a fun j hj heq => hout ?_
    have hle : k ≤ j := by
      have hsame := hoffset.trans heq
      simp only [State.ea, Config.memSize] at hsame
      omega
    exact Nat.lt_of_le_of_lt hle hj

theorem StoredFromI.fetchWord {s t : State} {bytes : List Byte} (h : StoredFromI s bytes t) :
    t.fetchWord = wordAfter s bytes := by
  have hpc : t.pc = s.pc := by rw [h.frame]
  rw [State.fetchWord, hpc, h.readByte, h.readByte]
  rfl

/-- The three digits of a byte (R163). -/
def digits (b : Byte) : List Byte :=
  [BitVec.ofNat 8 (b.toNat / 100), BitVec.ofNat 8 (b.toNat / 10 % 10), BitVec.ofNat 8 (b.toNat % 10)]

/-- Bytes at different places behind I are at different addresses (R64). -/
theorem ea_ne_ea (s : State) {j k : Nat} (hj : j < 4096) (hk : k < 4096) (h : j ≠ k) : s.ea j ≠ s.ea k :=
  fun heq => h ((s.ea_inj hj hk).mp heq)

/-- FX33 stores the digits of V[X] from I on (R163). -/
theorem exec_ldB_stored (x : Reg) (s : State) :
    ∃ t, exec (.ldB x) s = .next t ∧ StoredFromI s (digits (s.reg x)) t := by
  have h01 : s.ea 0 ≠ s.ea 1 := ea_ne_ea s (by decide) (by decide) (by decide)
  have h02 : s.ea 0 ≠ s.ea 2 := ea_ne_ea s (by decide) (by decide) (by decide)
  have h12 : s.ea 1 ≠ s.ea 2 := ea_ne_ea s (by decide) (by decide) (by decide)
  refine ⟨_, rfl, fun k hk => ?_, fun a ha => ?_, rfl⟩
  · match k, hk with
    | 0, _ => simp [h01, h02, digits, hundreds]
    | 1, _ => simp [h12, digits, tens]
    | 2, _ => simp [digits, units]
  · simp [State.ea_mod, ha 0 (by simp [digits]), ha 1 (by simp [digits]), ha 2 (by simp [digits])]

/-- The registers V[0] to V[X] in order (R164). -/
def firstRegs (s : State) (x : Reg) : List Byte := (List.range (x.val + 1)).map fun k => s.reg (Fin.ofNat 16 k)

theorem firstRegs_length (s : State) (x : Reg) : (firstRegs s x).length = x.val + 1 := by
  simp [firstRegs]

/-- FX55 stores V[0] to V[X] from I on (R164). -/
theorem exec_storeRegs_stored (x : Reg) (s : State) :
    ∃ t, exec (.storeRegs x) s = .next t ∧ StoredFromI s (firstRegs s x) t := by
  have hlen := firstRegs_length s x
  refine ⟨_, rfl, fun k hk => ?_, fun a ha => ?_, storeLoop_eq _ s⟩
  · rw [storeLoop_stored (Nat.succ_le_of_lt x.isLt) s (hk.trans_eq hlen)]
    simp [firstRegs]
  · exact storeLoop_outside s fun k hk => ha k (hk.trans_eq hlen.symm)

/-- FX65 changes V registers alone (R165). -/
theorem onlyV_loadLoop (n : Nat) (s : State) : OnlyV s (loadLoop n s) :=
  ⟨loadLoop_eq n s, State.readByte_congr (by rw [loadLoop_eq]) (by rw [loadLoop_eq])⟩

/-! ## The statements -/

/-- Settles O18: each digit is below 256, so its byte holds it, and the three addresses differ. -/
theorem storeDecimalDigits : Obligations.StoreDecimalDigits := by
  intro x s
  obtain ⟨t, hexec, hstored⟩ := exec_ldB_stored x s
  have hb := (s.reg x).isLt
  refine ⟨decodeWord_encode (i := .ldB x) rfl, t, hexec, ?_, ?_, ?_, fun a h0 h1 h2 => hstored.kept a ?_, hstored.frame⟩
  · rw [hstored.stored 0 (show 0 < 3 by decide)]
    exact Nat.mod_eq_of_lt (by omega)
  · rw [hstored.stored 1 (show 1 < 3 by decide)]
    exact Nat.mod_eq_of_lt (by omega)
  · rw [hstored.stored 2 (show 2 < 3 by decide)]
    exact Nat.mod_eq_of_lt (by omega)
  · intro k hk
    match k, hk with
    | 0, _ => exact h0
    | 1, _ => exact h1
    | 2, _ => exact h2

/-- Settles O19: the stored bytes are V[0] to V[X], and the store changes memory alone. -/
theorem storeRegistersInclusive : Obligations.StoreRegistersInclusive := by
  intro x s
  obtain ⟨t, hexec, hstored⟩ := exec_storeRegs_stored x s
  refine ⟨decodeWord_encode (i := .storeRegs x) rfl, t, hexec, fun k hk => ?_, fun a ha => hstored.kept a ?_,
    hstored.frame⟩
  · rw [hstored.stored k.val (by rw [firstRegs_length]; exact Nat.lt_succ_of_le hk)]
    simp [firstRegs]
  · intro k hk
    rw [firstRegs_length] at hk
    exact ha ⟨k, by omega⟩ (Nat.le_of_lt_succ hk)

/-- Settles O20: register k is loaded where k is at most X, and the loop writes V registers alone. -/
theorem loadRegistersInclusive : Obligations.LoadRegistersInclusive := by
  intro x s
  have hreg := loadLoop_reg (Nat.succ_le_of_lt x.isLt) s
  refine ⟨decodeWord_encode (i := .loadRegs x) rfl, _, rfl, fun k hk => ?_, fun k hk => ?_, onlyV_loadLoop _ s⟩
  · rw [hreg k, if_pos (Nat.lt_succ_of_le hk)]
  · rw [hreg k, if_neg (Nat.not_lt.mpr (Nat.succ_le_of_lt hk))]

/-- Settles O54: FX65 loads from the addresses FX55 stored to, since neither changes I. -/
theorem storeThenLoadRestores : Obligations.StoreThenLoadRestores := by
  intro x s t between h
  obtain ⟨_, u, hexec, hstored, _, hframe⟩ := storeRegistersInclusive x s
  obtain rfl := Host.Outcome.next.inj (hexec.symm.trans h)
  obtain ⟨_, w, hload, hloaded, _, hw, _⟩ := loadRegistersInclusive x { u with v := between }
  have hi : u.i = s.i := by rw [hframe]
  refine ⟨w, hload, ?_, fun k hk => ?_⟩
  · rw [hw]; exact hi
  · calc w.reg k = u.readByte (u.ea k.val) := hloaded k hk
      _ = u.readByte (s.ea k.val) := by rw [State.ea_congr hi]
      _ = s.reg k := hstored k hk

/-- Settles O55: a store leaves `pc` alone, and the fetch reads each of its bytes as the store left it. -/
theorem storeSeenByNextFetch : Obligations.StoreSeenByNextFetch := by
  intro x s
  obtain ⟨t, hdigits, hstored⟩ := exec_ldB_stored x s
  obtain ⟨u, hregs, hstored'⟩ := exec_storeRegs_stored x s
  exact ⟨⟨t, hdigits, by rw [hstored.frame], hstored.fetchWord⟩, ⟨u, hregs, by rw [hstored'.frame], hstored'.fetchWord⟩⟩

end Sys2Proof.Proofs

/-! Proofs of the family other: DXYN, and a sprite drawn twice. -/

namespace Sys2Proof.Proofs

open Sys2Proof Sys2Proof.Machine Sys2Proof.Claims

/-- Word DXYN decodes to DRW Vx, Vy, N (R96, R173). -/
theorem decodeWord_drw (x y : Reg) (n : BitVec 4) :
    decodeWord (0xD#4 ++ regNibble x ++ regNibble y ++ n) = some (.drw x y n.toNat) := by
  have hn : BitVec.ofNat 4 n.toNat = n := BitVec.eq_of_toNat_eq (Nat.mod_eq_of_lt n.isLt)
  have h := decodeWord_encode (i := .drw x y n.toNat) (decide_eq_true n.isLt)
  rwa [encode, encodeXYN, hn] at h

/-- Settles O23: DRW is DrawSprite of the bytes at I, one write of the framebuffer and one of VF. -/
theorem drawSpriteFromMemory : Obligations.DrawSpriteFromMemory := by
  intro x y n s
  have hlen : (s.spriteRows n.toNat).length ≤ 15 := by
    rw [spriteRows_length]
    exact Nat.le_of_lt_succ n.isLt
  obtain ⟨hpixels, hcollision⟩ :=
    drawSpriteXorsAndReportsCollision s.fb (s.reg x).toNat (s.reg y).toNat (s.spriteRows n.toNat) hlen
  refine ⟨decodeWord_drw x y n, (s.setFb _).setReg 15 _, s.spriteRows n.toNat, rfl, spriteRows_length s _,
    fun r hr => spriteRows_getD s hr, hpixels, fun hhit => ?_, fun hmiss => ?_,
    vKeptBut_setReg (s.setFb _) 15 _, rfl, State.readByte_congr rfl rfl⟩
  · rw [reg_setReg_same, hcollision.mpr hhit, flagByte_true]
  · rw [reg_setReg_same, Bool.eq_false_iff.mpr (mt hcollision.mp hmiss), flagByte_false]

/-- Settles O24: a pixel under a 1 bit is inverted twice, and the second draw meets the inverse of what it was. -/
theorem drawingTwiceRestores : Obligations.DrawingTwiceRestores := by
  intro f x y rows hlen
  obtain ⟨hfirst, _⟩ := drawSpriteXorsAndReportsCollision f x y rows hlen
  obtain ⟨hsecond, hcollision⟩ := drawSpriteXorsAndReportsCollision (drawSprite f x y rows).1 x y rows hlen
  refine ⟨fb_ext fun py px => ?_, hcollision.trans ?_⟩
  · by_cases hset : SpriteSets x y rows py px
    · rw [(hsecond py px).1 hset, (hfirst py px).1 hset, Bool.not_not]
    · rw [(hsecond py px).2 hset, (hfirst py px).2 hset]
  · refine exists_congr fun py => exists_congr fun px => and_congr_right fun hset => ?_
    rw [(hfirst py px).1 hset, Bool.not_eq_true']

end Sys2Proof.Proofs

/-! Proofs of the family other: the steps of the engine in each MODE, the tick, load and reset, and power-on. -/

namespace Sys2Proof.Proofs

open Sys2Proof Sys2Proof.Machine Sys2Proof.Claims

/-! ## RUN -/

/-- What the decoder reads at `pc` is what the engine fetches (R61, R90). -/
theorem decodeWord_of_decode {hi lo : Byte} {i : Instr} (h : decode [hi, lo] = .ok (i, [])) :
    decodeWord (wordOfBytes hi lo) = some i := by
  cases hword : decodeWord (wordOfBytes hi lo) with
  | none => simp [decode_of_decodeWord_none hword] at h
  | some j => simpa [decode_of_decodeWord hword] using h

/-- The decoder rejects two bytes with their word (R99). -/
theorem decodeWord_of_decode_error {hi lo : Byte} {w : Word} (h : decode [hi, lo] = .error (.unknownOpcode w)) :
    decodeWord (wordOfBytes hi lo) = none ∧ wordOfBytes hi lo = w := by
  cases hword : decodeWord (wordOfBytes hi lo) with
  | none => exact ⟨rfl, by simpa [decode_of_decodeWord_none hword] using h⟩
  | some j => simp [decode_of_decodeWord hword] at h

/-- Settles O36: a slot in RUN is the execution of the fetched instruction after the fetch advance. -/
theorem stepRunsTheDecodedInstruction : Obligations.StepRunsTheDecodedInstruction := by
  intro s i keys rnd hturn hrun hdecode
  have hfetch : decodeWord (slotTaken s keys rnd).fetchWord = some i := decodeWord_of_decode hdecode
  rw [step_slot hturn, engineStep_run (s := slotTaken s keys rnd) hrun, fetchExec_some hfetch, advance_eq]
  rfl

/-- Settles O37: a slot in RUN at an unrecognised word is the fetch advance and the record. -/
theorem unrecognisedWordOnlyAdvances : Obligations.UnrecognisedWordOnlyAdvances := by
  intro s w keys rnd hturn hrun hdecode
  obtain ⟨hnone, rfl⟩ := decodeWord_of_decode_error hdecode
  have hfetch : decodeWord (slotTaken s keys rnd).fetchWord = none := hnone
  rw [step_slot hturn, engineStep_run (s := slotTaken s keys rnd) hrun, fetchExec_none hfetch, advance_eq]
  rfl

/-- Settles O56: the word decodes to the jump, so its operand is a 12-bit address, which the mask on `pc` keeps. -/
theorem selfJumpIsFixpoint : Obligations.SelfJumpIsFixpoint := by
  intro s keys rnd hturn hfinished
  obtain ⟨hmode, hword⟩ := (Bool.and_eq_true _ _).mp hfinished
  have hrun : (slotTaken s keys rnd).mode = .run := of_decide_eq_true hmode
  have hjump : decodeWord (slotTaken s keys rnd).fetchWord = some (.jp s.pc) := beq_iff_eq.mp hword
  have haddr : low12 s.pc = s.pc := low12_of_lt (of_decide_eq_true (encodeOfDecode _ _ hjump).1)
  have hstep : step s = .next (slotTaken s keys rnd) := by
    rw [step_slot hturn, engineStep_run hrun, fetchExec_some hjump, exec_jp, State.setPc, haddr]
    rfl
  exact ⟨_, hstep, rfl, hfinished⟩

/-! ## WAITKEY and HALT -/

/-- Settles O38: the sample is of the lines the slot presents. -/
theorem waitingSlotSamplesKeys : Obligations.WaitingSlotSamplesKeys := by
  intro s x keys rnd hturn hwait
  have hstep := (step_slot hturn).trans (engineStep_waitKey (s := slotTaken s keys rnd) hwait)
  refine ⟨fun k hdown hlowest => ?_, fun hnone => ?_⟩
  · have hkey : (slotTaken s keys rnd).lowestKey = some (BitVec.ofNat 8 k.val) := State.lowestKey_some hdown hlowest
    rw [hstep, pollKeys_of_some x hkey]
    refine ⟨_, rfl, ?_, vKeptBut_setReg (slotTaken s keys rnd) x _, rfl⟩
    rw [State.reg_setMode, reg_setReg_same, ofNat_key_toNat]
  · rw [hstep, pollKeys_of_none x (State.lowestKey_none hnone)]

/-- Settles O39: a slot in HALT passes, a tick leaves MODE, and the other two turns are the host's. -/
theorem haltedEngineDoesNothing : Obligations.HaltedEngineDoesNothing := by
  intro s cause hhalt
  have hslot (keys : BitVec 16) (rnd : Byte) (hturn : s.nextTurn = .engine keys rnd) :
      step s = .next (slotTaken s keys rnd) :=
    (step_slot hturn).trans (engineStep_halt (s := slotTaken s keys rnd) hhalt)
  refine ⟨?_, hslot, fun t ht hleft => ?_⟩
  · rw [State.faultLine, hhalt]
    cases cause <;> rfl
  · cases hturn : s.nextTurn with
    | engine keys rnd =>
      obtain rfl := Host.Outcome.next.inj ((hslot keys rnd hturn).symm.trans ht)
      exact absurd hhalt hleft
    | tick =>
      obtain rfl := Host.Outcome.next.inj ((step_tick hturn).symm.trans ht)
      rw [State.timerTick_mode, State.endTurn_eq] at hleft
      exact absurd hhalt hleft
    | load rom => exact .inr ⟨rom, rfl⟩
    | reset => exact .inl rfl

/-! ## The tick -/

/-- Settles O40: a tick is the count-down of both timers, whatever MODE is. -/
theorem tickStepsInEveryMode : Obligations.TickStepsInEveryMode := by
  intro s hturn
  have hstep := step_tick hturn
  rw [State.endTurn_eq] at hstep
  exact ⟨_, hstep, countDown_toNat s.dt, countDown_toNat s.st, rfl, State.readByte_congr rfl rfl⟩

/-! ## Power-on, load and reset -/

/-- Below the program range memory at power-on is FONT and then the free bytes (R44, R241). -/
theorem initByte_font (f : Font) (k : Fin 80) : initByte f k.val = f[k.val] := dif_pos k.isLt

theorem powerOn_reg (font : Font) (depth : Nat) (k : Reg) : (State.powerOn font depth).reg k = 0 := by
  simp [State.reg, State.powerOn]

theorem powerOn_readByte (font : Font) (depth : Nat) {a : Nat} (ha : a < 4096) :
    (State.powerOn font depth).readByte a = initByte font a := by
  have h : a % 4096 = a := Nat.mod_eq_of_lt ha
  simp [State.readByte, State.powerOn, Memory.read, Memory.lookup, h]

/-- Settles O44: no cell is listed at power-on, so every byte reads as its initial contents. -/
theorem resetState : Obligations.ResetState := by
  refine ⟨rfl, fun font depth s hs => ?_⟩
  subst hs
  refine ⟨powerOn_reg font depth, rfl, rfl, rfl, rfl, rfl, rfl, rfl, rfl, pixel_clearedFb, rfl, fun k => ?_,
    fun a hlow hhigh => ?_, fun a hlow hhigh => ?_⟩
  · rw [powerOn_readByte font depth (by omega), initByte_font]
  · rw [powerOn_readByte font depth (by omega), initByte, dif_neg (Nat.not_lt.mpr hlow), if_pos hhigh]
  · rw [powerOn_readByte font depth hhigh, initByte, dif_neg (Nat.not_lt.mpr (Nat.le_trans (by decide) hlow)),
      if_neg (Nat.not_lt.mpr hlow)]

/-- A load that fits leaves the table of R44: the registers of power-on over a loaded memory (R243). -/
theorem reinitialised_load (s : State) {rom : List Byte} (h : rom.length ≤ 3584) :
    Reinitialised s (s.load rom) rom := by
  rw [State.load_fits h]
  exact {
    fontBytes := fun k => by
      have hk : ¬ 0x050 ≤ k.val := by omega
      have hread := Memory.read_loaded_low (f := s.font) s.mem rom (a := k.val) (by omega)
      rw [if_neg hk, initByte_font] at hread
      exact hread
    reserved := fun a hlow hhigh => (Memory.read_loaded_low s.mem rom hhigh).trans (if_pos hlow)
    program := fun k hk => Memory.read_loaded_program s.mem rom hk (by omega)
    cleared := fun a hlow hhigh => Memory.read_loaded_cleared s.mem rom hlow hhigh
    registers := powerOn_reg s.font s.stackDepth
    specials := ⟨rfl, rfl, rfl, rfl, rfl⟩
    stack := ⟨rfl, rfl⟩
    screen := pixel_clearedFb
    parameter := rfl }

/-- Using up the turn changes nothing a re-initialisation keeps, and the output record is no state element. -/
theorem reinitialised_of_endTurn {s t u : State} {rom : List Byte} (h : Reinitialised s.endTurn t rom)
    (hu : u = { t with out := u.out }) : Reinitialised s u rom := by
  rw [State.endTurn_eq] at h
  rw [hu]
  exact ⟨h.fontBytes, h.reserved, h.program, h.cleared, h.registers, h.specials, h.stack, h.screen, h.parameter⟩

/-- Settles O41: the step is a load that fits. -/
theorem loadReinitialises : Obligations.LoadReinitialises := by
  intro s rom hturn hfits
  refine ⟨_, step_load hturn, reinitialised_of_endTurn (reinitialised_load s.endTurn hfits) rfl, ?_⟩
  rw [State.load_fits hfits]

/-- Settles O42: the step is a load that does not fit, which only reports it. -/
theorem oversizedLoadRejected : Obligations.OversizedLoadRejected := by
  intro s rom hturn hlarge
  refine ⟨_, step_load hturn, ?_, ?_⟩
  · rw [State.load_too_large hlarge, State.endTurn_eq]
    rfl
  · rw [State.load_too_large hlarge, State.emit_out]

/-- Settles O43: a reset is a load of the empty ROM with its record taken back. -/
theorem hostResetReinitialises : Obligations.HostResetReinitialises := by
  intro s hturn
  exact ⟨_, step_reset hturn, reinitialised_of_endTurn (reinitialised_load s.endTurn (Nat.zero_le _)) rfl, rfl⟩

end Sys2Proof.Proofs

/-! Proofs of the family other: what no step reads, ST and the stack's entries from SP on. -/

namespace Sys2Proof.Proofs

open Sys2Proof Sys2Proof.Machine Sys2Proof.Claims

/-! ## States that differ in ST and in stale stack entries -/

/-- `s` with other contents of ST and of the stack's entries. -/
def withHidden (s : State) (b : Byte) (stk : List Word) : State := { s with st := b, stk := stk }

/-- As many entries as the stack has, the same below SP (R32). -/
def AgreesBelowSp (s : State) (stk : List Word) : Prop :=
  stk.length = s.stackDepth ∧ ∀ k, k < s.sp → stk[k]? = s.stk[k]?

/-- Two outcomes, of `s` and of `s` with other hidden contents `b` and `stk`, differ in hidden contents alone; contents
that were no others are no others after it. -/
def Alike (s : State) (b : Byte) (stk : List Word) (o o' : Result) : Prop :=
  ∃ t c stk', o = .next t ∧ o' = .next (withHidden t c stk') ∧ AgreesBelowSp t stk' ∧
    (b = s.st → c = t.st) ∧ (stk = s.stk → stk' = t.stk)

section Hidden

variable {s : State} {stk : List Word} (b : Byte)

/-- Where ST, SP and the stack are not written, the hidden contents stay what they were. -/
theorem alike_of_kept {t : State} {o o' : Result} (h : AgreesBelowSp s stk) (ho : o = .next t)
    (ho' : o' = .next (withHidden t b stk)) (hst : t.st = s.st) (hstack : t.sp = s.sp ∧ t.stk = s.stk) :
    Alike s b stk o o' := by
  obtain ⟨hsp, hstk⟩ := hstack
  refine ⟨t, b, stk, ho, ho', ?_, fun h => h.trans hst.symm, fun h => h.trans hstk.symm⟩
  rwa [AgreesBelowSp, State.stackDepth, hsp, hstk]

/-- A state is like itself, whatever was hidden before. -/
theorem alike_refl (t : State) : Alike s b stk (.next t) (.next t) :=
  ⟨t, t.st, t.stk, rfl, rfl, ⟨rfl, fun _ _ => rfl⟩, fun _ => rfl, fun _ => rfl⟩

/-! ## Instructions -/

/-- RET and CALL work on the stack, FX18 writes ST. -/
def TouchesHidden (i : Instr) : Prop := i = .ret ∨ (∃ nnn, i = .call nnn) ∨ ∃ x, i = .ldStVx x

variable (s stk)

theorem skipIf_withHidden (c : Bool) : (withHidden s b stk).skipIf c = withHidden (s.skipIf c) b stk := by
  cases c <;> rfl

theorem storeLoop_withHidden (n : Nat) : storeLoop n (withHidden s b stk) = withHidden (storeLoop n s) b stk := by
  induction n with
  | zero => rfl
  | succ n ih => rw [storeLoop_succ, storeLoop_succ, ih]; rfl

theorem loadLoop_withHidden (n : Nat) : loadLoop n (withHidden s b stk) = withHidden (loadLoop n s) b stk := by
  induction n with
  | zero => rfl
  | succ n ih => rw [loadLoop_succ, loadLoop_succ, ih]; rfl

/-- The other instructions do not read what is hidden. -/
theorem exec_withHidden {i : Instr} (hi : ¬ TouchesHidden i) :
    ∃ t, exec i s = .next t ∧ exec i (withHidden s b stk) = .next (withHidden t b stk) := by
  cases i with
  | ret => exact absurd (.inl rfl) hi
  | call nnn => exact absurd (.inr (.inl ⟨nnn, rfl⟩)) hi
  | ldStVx x => exact absurd (.inr (.inr ⟨x, rfl⟩)) hi
  | seImm | sneImm | seReg | sneReg | skp | sknp => exact ⟨_, rfl, congrArg _ (skipIf_withHidden s stk b _)⟩
  | ldVxK x =>
    cases h : s.lowestKey with
    | none => exact ⟨_, exec_ldVxK_of_none h, exec_ldVxK_of_none (s := withHidden s b stk) h⟩
    | some k => exact ⟨_, exec_ldVxK_of_some h, exec_ldVxK_of_some (s := withHidden s b stk) h⟩
  | storeRegs x => exact ⟨_, rfl, congrArg _ (storeLoop_withHidden s stk b _)⟩
  | loadRegs x => exact ⟨_, rfl, congrArg _ (loadLoop_withHidden s stk b _)⟩
  | _ => exact ⟨_, rfl, rfl⟩

variable {s stk} (h : AgreesBelowSp s stk)

include h

/-- RET reads the entry below SP, which is no hidden one (R120). -/
theorem exec_ret_alike : Alike s b stk (exec .ret s) (exec .ret (withHidden s b stk)) := by
  obtain ⟨hlen, hbelow⟩ := h
  cases hsp : s.sp with
  | zero =>
    exact alike_of_kept b ⟨hlen, hbelow⟩ (exec_ret_of_zero hsp) (exec_ret_of_zero (s := withHidden s b stk) hsp) rfl
      ⟨rfl, rfl⟩
  | succ k =>
    have hentry : stk.getD k 0 = s.stk.getD k 0 := by
      rw [List.getD_eq_getElem?_getD, List.getD_eq_getElem?_getD, hbelow k (hsp ▸ Nat.lt_succ_self k)]
    have hother := exec_ret_of_succ (s := withHidden s b stk) hsp
    rw [show (withHidden s b stk).stk.getD k 0 = s.stk.getD k 0 from hentry] at hother
    exact ⟨_, b, stk, exec_ret_of_succ hsp, hother,
      ⟨hlen, fun j hj => hbelow j ((Nat.lt_succ_of_lt hj).trans_eq hsp.symm)⟩, id, id⟩

/-- CALL writes the entry at SP, the same in both (R122). -/
theorem exec_call_alike (nnn : Word) : Alike s b stk (exec (.call nnn) s) (exec (.call nnn) (withHidden s b stk)) := by
  obtain ⟨hlen, hbelow⟩ := h
  rcases Nat.lt_or_ge s.sp s.stackDepth with hroom | hfull
  · have hroom' : (withHidden s b stk).sp < (withHidden s b stk).stackDepth := hroom.trans_eq hlen.symm
    refine ⟨_, b, stk.set s.sp s.pc, exec_call_of_lt hroom, exec_call_of_lt hroom', ⟨?_, fun k hk => ?_⟩, id,
      fun heq => congrArg (·.set s.sp s.pc) heq⟩
    · exact List.length_set.trans (hlen.trans List.length_set.symm)
    · rcases Nat.lt_succ_iff_lt_or_eq.mp hk with hlt | rfl
      · exact (List.getElem?_set_ne (Nat.ne_of_gt hlt)).trans
          ((hbelow k hlt).trans (List.getElem?_set_ne (Nat.ne_of_gt hlt)).symm)
      · exact (List.getElem?_set_self hroom').trans (List.getElem?_set_self hroom).symm
  · exact alike_of_kept b ⟨hlen, hbelow⟩ (exec_call_of_le hfull)
      (exec_call_of_le (s := withHidden s b stk) (hlen.trans_le hfull)) rfl ⟨rfl, rfl⟩

theorem exec_alike (i : Instr) : Alike s b stk (exec i s) (exec i (withHidden s b stk)) := by
  by_cases hi : TouchesHidden i
  · rcases hi with rfl | ⟨nnn, rfl⟩ | ⟨x, rfl⟩
    · exact exec_ret_alike b h
    · exact exec_call_alike b h nnn
    · exact ⟨_, s.reg x, stk, rfl, rfl, h, fun _ => rfl, id⟩
  · obtain ⟨t, ht, ht'⟩ := exec_withHidden s stk b hi
    have heffect := effect_of_exec ht
    exact alike_of_kept b h ht ht' (heffect.st_eq_or.resolve_right fun hst => hi (.inr (.inr hst)))
      (heffect.stack_eq_or.resolve_right fun hstack => hi (hstack.imp_right .inl))

/-! ## Steps -/

theorem engineStep_alike : Alike s b stk s.engineStep (withHidden s b stk).engineStep := by
  cases hmode : s.mode with
  | run =>
    rw [engineStep_run hmode, engineStep_run (s := withHidden s b stk) hmode]
    cases hword : decodeWord s.fetchWord with
    | none =>
      exact alike_of_kept b h (fetchExec_none hword) (fetchExec_none (s := withHidden s b stk) hword) rfl ⟨rfl, rfl⟩
    | some i =>
      rw [fetchExec_some hword, fetchExec_some (s := withHidden s b stk) hword]
      exact exec_alike (s := s.advance) b h i
  | waitKey x =>
    rw [engineStep_waitKey hmode, engineStep_waitKey (s := withHidden s b stk) hmode]
    cases hkey : s.lowestKey with
    | none =>
      rw [pollKeys_of_none x hkey, pollKeys_of_none (s := withHidden s b stk) x hkey]
      exact alike_of_kept b h rfl rfl rfl ⟨rfl, rfl⟩
    | some k =>
      rw [pollKeys_of_some x hkey, pollKeys_of_some (s := withHidden s b stk) x hkey]
      exact alike_of_kept b h rfl rfl rfl ⟨rfl, rfl⟩
  | halt cause =>
    exact alike_of_kept b h (engineStep_halt hmode) (engineStep_halt (s := withHidden s b stk) hmode) rfl ⟨rfl, rfl⟩

/-- A load that fits overwrites what is hidden (R243). -/
theorem load_withHidden {rom : List Byte} (hfits : rom.length ≤ 3584) : (withHidden s b stk).load rom = s.load rom := by
  have hdepth : (withHidden s b stk).stackDepth = s.stackDepth := h.1
  rw [State.load_fits hfits, State.load_fits hfits, State.reinit, State.reinit, hdepth]
  rfl

/-- Every turn takes states that differ in hidden contents to states that differ in hidden contents. -/
theorem step_alike : Alike s b stk (step s) (step (withHidden s b stk)) := by
  have hend : (withHidden s b stk).endTurn = withHidden s.endTurn b stk := by
    rw [State.endTurn_eq, State.endTurn_eq]; rfl
  have h' : AgreesBelowSp s.endTurn stk := by
    rw [State.endTurn_eq]; exact h
  cases hturn : s.nextTurn with
  | engine keys rnd =>
    rw [step_slot hturn, step_slot (s := withHidden s b stk) hturn]
    exact engineStep_alike (s := slotTaken s keys rnd) b h
  | tick =>
    rw [step_tick hturn, step_tick (s := withHidden s b stk) hturn, State.endTurn_eq, State.endTurn_eq]
    exact ⟨_, countDown b, stk, rfl, rfl, h, congrArg countDown, id⟩
  | load rom =>
    rw [step_load hturn, step_load (s := withHidden s b stk) hturn, hend]
    rcases Nat.lt_or_ge 3584 rom.length with hlarge | hfits
    · rw [State.load_too_large hlarge, State.load_too_large hlarge, State.endTurn_eq]
      exact alike_of_kept b h rfl rfl rfl ⟨rfl, rfl⟩
    · rw [load_withHidden b h' hfits]
      exact alike_refl b _
  | reset =>
    rw [step_reset hturn, step_reset (s := withHidden s b stk) hturn, hend, State.hostReset, State.hostReset,
      load_withHidden b h' (Nat.zero_le _)]
    exact alike_refl b _

end Hidden

/-! ## The statements -/

/-- Settles O57: with the same stack only ST can differ. -/
theorem soundTimerUnobservable : Obligations.SoundTimerUnobservable := by
  intro s b
  obtain ⟨t, c, stk, ht, ht', _, _, hstk⟩ := step_alike (s := s) (stk := s.stk) b ⟨rfl, fun _ _ => rfl⟩
  obtain rfl := hstk rfl
  exact ⟨t, c, ht, ht'⟩

/-- Settles O58: with the same ST only entries from SP on can differ. -/
theorem staleStackEntriesUnobservable : Obligations.StaleStackEntriesUnobservable := by
  intro s stk hlen hbelow
  obtain ⟨t, c, stk', ht, ht', ⟨hlen', hbelow'⟩, hst, _⟩ := step_alike (s := s) s.st ⟨hlen, hbelow⟩
  obtain rfl := hst rfl
  exact ⟨t, stk', ht, ht', hlen', hbelow'⟩

end Sys2Proof.Proofs
